-- ==== Sys2Proof/Config.lean ====
section
/-! DEFINITION. The parameters of the hardware, at the values of 00_scope.md R6, and the one free value of the
machine, the random byte of CXNN (R16). -/

namespace Sys2Proof.Config

/-- `NUM_REGS`: general registers V0 to VF (R6). -/
abbrev numRegs : Nat := 16

/-- `REG_W`: bits of a V register (R6). -/
abbrev regW : Nat := 8

/-- `PC_W`: bits of PC (R6). -/
abbrev pcW : Nat := 16

/-- `I_W`: bits of I (R6). -/
abbrev iW : Nat := 16

/-- `TIMER_W`: bits of DT and of ST (R6). -/
abbrev timerW : Nat := 8

/-- `STACK_DEPTH`: capacity of the call stack (R6). -/
abbrev stackDepth : Nat := 16

/-- `STACK_W`: bits of a stack entry, which holds a PC value (R6; log 20). -/
abbrev stackW : Nat := 16

/-- `MEM_SIZE`: addresses are 0 .. `memSize` - 1 (R6; log 8). -/
abbrev memSize : Nat := 4096

/-- `PROG_BASE`: load address of a program and reset value of PC (R6). -/
abbrev progBase : Nat := 0x200

/-- `FONT_BASE`: first address of the font (R6). -/
abbrev fontBase : Nat := 0

/-- `GLYPH_STRIDE`: bytes per glyph (R6). -/
abbrev glyphStride : Nat := 5

/-- `FONT_LEN`: 16 glyphs of 5 bytes (R6). -/
abbrev fontLen : Nat := 80

/-- `DISPLAY_W`: pixels in a row (R6; PRESUMED by the spec itself, G2; log 11). -/
abbrev displayW : Nat := 64

/-- `DISPLAY_H`: rows of pixels (R6; PRESUMED by the spec itself, G2; log 11). -/
abbrev displayH : Nat := 32

/-- `NUM_KEYS`: keys 0x0 .. 0xF (R6). -/
abbrev numKeys : Nat := 16

/-- `TICK_HZ`: nominal rate of `Tick()`; no rule depends on it (R6, R248). -/
abbrev tickHz : Nat := 60

/-- The two legal values of `SHIFT_SRC` (R6). -/
inductive ShiftSrc where
  | vx
  | vy
deriving DecidableEq, Repr

/-- `SHIFT_SRC`: the register that 8XY6 and 8XYE shift, at the value R6 says this hardware takes (log 7). -/
def shiftSrc : ShiftSrc := .vx

/-- Glyphs 0 to 7 of the font table of 70_reset_and_hazards.md R233, top row first. -/
def fontLow : List (BitVec 8) :=
  [0xF0, 0x90, 0x90, 0x90, 0xF0] ++ [0x20, 0x60, 0x20, 0x20, 0x70] ++
  [0xF0, 0x10, 0xF0, 0x80, 0xF0] ++ [0xF0, 0x10, 0xF0, 0x10, 0xF0] ++
  [0x90, 0x90, 0xF0, 0x10, 0x10] ++ [0xF0, 0x80, 0xF0, 0x10, 0xF0] ++
  [0xF0, 0x80, 0xF0, 0x90, 0xF0] ++ [0xF0, 0x10, 0x20, 0x40, 0x40]

/-- Glyphs 8 to F of the font table of 70_reset_and_hazards.md R233, top row first. -/
def fontHigh : List (BitVec 8) :=
  [0xF0, 0x90, 0xF0, 0x90, 0xF0] ++ [0xF0, 0x90, 0xF0, 0x10, 0xF0] ++
  [0xF0, 0x90, 0xF0, 0x90, 0x90] ++ [0xE0, 0x90, 0xE0, 0x90, 0xE0] ++
  [0xF0, 0x80, 0x80, 0x80, 0xF0] ++ [0xE0, 0x90, 0x90, 0x90, 0xE0] ++
  [0xF0, 0x80, 0xF0, 0x80, 0xF0] ++ [0xF0, 0x80, 0xF0, 0x80, 0x80]

/-- `FONT`: the 80 glyph bytes (R6, R233; PRESUMED by the spec itself, G1; log 9). -/
def font : List (BitVec 8) := fontLow ++ fontHigh

/-- The byte that the `n`-th random draw returns: any of the 256 values, under no law (R16, R132; D26).
A FREE VALUE: nothing in Lean knows it (log 3). -/
opaque randomByte : Nat → BitVec 8

end Sys2Proof.Config
end

