-- ==== Sys2Proof/Word.lean ====
section
/-! DEFINITION. Word types of the machine (spec 10_state.md R20, R23, R27; 30_encoding.md R72). -/

namespace Sys2Proof

/-- A byte of memory or an immediate, unsigned (R7, R37, R72). V registers and the timers, `Config.regW` and
`Config.timerW` bits wide, hold bytes too (R20, R28, R29). -/
abbrev Byte := BitVec 8

/-- An opcode (R70). PC, I and stack entries, `Config.pcW`, `Config.iW` and `Config.stackW` bits wide, are of its width
(R23, R27, R34). -/
abbrev Word := BitVec 16

/-- The `NNN` field of an opcode: a 12-bit byte address (R72, R74). -/
abbrev Addr := BitVec 12

/-- The index of a general register, V0 to VF (R20). -/
abbrev Reg := Fin Config.numRegs

/-- The index of a key, 0x0 to 0xF (R14, R198). -/
abbrev Key := Fin Config.numKeys

/-- The register that doubles as the flag (R22, R25). -/
abbrev VF : Reg := 15

end Sys2Proof
end

