-- ==== Sys2Proof/Syntax.lean ====
section
/-! DEFINITION. The instructions: one constructor per row of the opcode map (30_encoding.md R75), in the order of
the table, and what a decoder can refuse. -/

namespace Sys2Proof

/-- An instruction with its operand fields (R72): `x`, `y` register indices, `nn` an immediate byte, `nnn` an
address, `n` a row count. Every field has exactly the values its bits can hold. -/
inductive Instr where
  /-- 00E0, clear display (R150). -/
  | cls
  /-- 00EE, return from subroutine (R100). -/
  | ret
  /-- 1NNN, jump (R101). -/
  | jp (nnn : Addr)
  /-- 2NNN, call subroutine (R102). -/
  | call (nnn : Addr)
  /-- 3XNN, skip if VX = NN (R110). -/
  | seImm (x : Reg) (nn : Byte)
  /-- 4XNN, skip if VX is not NN (R111). -/
  | sneImm (x : Reg) (nn : Byte)
  /-- 5XY0, skip if VX = VY (R112). -/
  | seReg (x y : Reg)
  /-- 9XY0, skip if VX is not VY (R113). -/
  | sneReg (x y : Reg)
  /-- 6XNN, load immediate (R121). -/
  | ldImm (x : Reg) (nn : Byte)
  /-- 7XNN, add immediate (R122). -/
  | addImm (x : Reg) (nn : Byte)
  /-- 8XY0, copy (R123). -/
  | ldReg (x y : Reg)
  /-- 8XY1, bitwise or (R124). -/
  | or (x y : Reg)
  /-- 8XY2, bitwise and (R125). -/
  | and (x y : Reg)
  /-- 8XY3, bitwise exclusive or (R126). -/
  | xor (x y : Reg)
  /-- 8XY4, add producing a carry (R127). -/
  | addReg (x y : Reg)
  /-- 8XY5, subtract (R128). -/
  | sub (x y : Reg)
  /-- 8XY6, shift right by one (R129). -/
  | shr (x y : Reg)
  /-- 8XY7, subtract reversed (R130). -/
  | subn (x y : Reg)
  /-- 8XYE, shift left by one (R131). -/
  | shl (x y : Reg)
  /-- ANNN, set I (R140). -/
  | ldI (nnn : Addr)
  /-- BNNN, jump to NNN + V0 (R103). -/
  | jpV0 (nnn : Addr)
  /-- CXNN, random AND NN (R132). -/
  | rnd (x : Reg) (nn : Byte)
  /-- DXYN, draw an N-row sprite (R152). -/
  | drw (x y : Reg) (n : Fin 16)
  /-- EX9E, skip if key VX is down (R160). -/
  | skp (x : Reg)
  /-- EXA1, skip if key VX is not down (R161). -/
  | sknp (x : Reg)
  /-- FX07, read the delay timer (R170). -/
  | ldVxDt (x : Reg)
  /-- FX15, write the delay timer (R171). -/
  | ldDtVx (x : Reg)
  /-- FX18, write the sound timer (R172). -/
  | ldStVx (x : Reg)
  /-- FX0A, wait for a key press (R162). -/
  | ldVxK (x : Reg)
  /-- FX1E, add VX to I (R141). -/
  | addI (x : Reg)
  /-- FX29, I = address of the glyph of VX (R142). -/
  | ldF (x : Reg)
  /-- FX33, store the decimal digits of VX (R180). -/
  | ldB (x : Reg)
  /-- FX55, store V0 .. VX (R181). -/
  | stRegs (x : Reg)
  /-- FX65, load V0 .. VX (R182). -/
  | ldRegs (x : Reg)
deriving DecidableEq, Repr

/-- The rows of the opcode map by name: the mnemonic column of R75, in the order of the table. -/
inductive Mnemonic where
  | CLS | RET | JP | CALL | SE_IMM | SNE_IMM | SE_REG | SNE_REG | LD_IMM | ADD_IMM
  | LD_REG | OR | AND | XOR | ADD_REG | SUB | SHR | SUBN | SHL
  | LD_I | JP_V0 | RND | DRW | SKP | SKNP
  | LD_VX_DT | LD_DT_VX | LD_ST_VX | LD_VX_K | ADD_I | LD_F | LD_B | ST_REGS | LD_REGS
deriving DecidableEq, Repr

/-- The six instruction formats (R71). -/
inductive Format where
  | fixed
  | nnn
  | xnn
  | xy
  | xyn
  | x
deriving DecidableEq, Repr

/-- A row of the opcode map: a word is the row's instruction when its bits under `mask` are `bits` (R75). -/
structure OpRow where
  bits : Word
  mask : Word
  format : Format
deriving DecidableEq, Repr

/-- Why bytes are not an instruction. -/
inductive DecodeError where
  /-- Two bytes that match no row of the opcode map (R77); the machine executes them as a no-op (R95). -/
  | unknownOpcode (w : Word)
  /-- Fewer than two bytes: not a whole opcode (R70). The machine never meets it, its fetch being two bytes. -/
  | truncated
deriving DecidableEq, Repr

/-- The mnemonic of an instruction (R75). -/
def Instr.mnemonic : Instr → Mnemonic
  | .cls => .CLS
  | .ret => .RET
  | .jp _ => .JP
  | .call _ => .CALL
  | .seImm _ _ => .SE_IMM
  | .sneImm _ _ => .SNE_IMM
  | .seReg _ _ => .SE_REG
  | .sneReg _ _ => .SNE_REG
  | .ldImm _ _ => .LD_IMM
  | .addImm _ _ => .ADD_IMM
  | .ldReg _ _ => .LD_REG
  | .or _ _ => .OR
  | .and _ _ => .AND
  | .xor _ _ => .XOR
  | .addReg _ _ => .ADD_REG
  | .sub _ _ => .SUB
  | .shr _ _ => .SHR
  | .subn _ _ => .SUBN
  | .shl _ _ => .SHL
  | .ldI _ => .LD_I
  | .jpV0 _ => .JP_V0
  | .rnd _ _ => .RND
  | .drw _ _ _ => .DRW
  | .skp _ => .SKP
  | .sknp _ => .SKNP
  | .ldVxDt _ => .LD_VX_DT
  | .ldDtVx _ => .LD_DT_VX
  | .ldStVx _ => .LD_ST_VX
  | .ldVxK _ => .LD_VX_K
  | .addI _ => .ADD_I
  | .ldF _ => .LD_F
  | .ldB _ => .LD_B
  | .stRegs _ => .ST_REGS
  | .ldRegs _ => .LD_REGS

/-- The operands of an instruction in the order of the assembler syntax (R80). -/
def Instr.operands : Instr → List Nat
  | .cls | .ret => []
  | .jp nnn | .call nnn | .ldI nnn | .jpV0 nnn => [nnn.toNat]
  | .seImm x nn | .sneImm x nn | .ldImm x nn | .addImm x nn | .rnd x nn => [x.val, nn.toNat]
  | .seReg x y | .sneReg x y | .ldReg x y | .or x y | .and x y | .xor x y | .addReg x y
  | .sub x y | .shr x y | .subn x y | .shl x y => [x.val, y.val]
  | .drw x y n => [x.val, y.val, n.val]
  | .skp x | .sknp x | .ldVxDt x | .ldDtVx x | .ldStVx x | .ldVxK x | .addI x | .ldF x
  | .ldB x | .stRegs x | .ldRegs x => [x.val]

end Sys2Proof
end

