-- ==== Sys2Proof/WellFormed.lean ====
section
/-! DEFINITION. Well-formedness. An `AsmLine` is one line of a listing in the syntax of 30_encoding.md R80, with
operands as plain numbers, so it can be ill formed: a wrong number of operands, or an operand out of the range R80
gives its place. An `Instr` is well formed when its line is; its field types already hold it to the ranges, so this
is a check of the field types, proved for every `Instr` in Laws. -/

namespace Sys2Proof

/-- The format of a row (the format column of R75; R71). -/
def Mnemonic.format : Mnemonic → Format
  | .CLS | .RET => .fixed
  | .JP | .CALL | .LD_I | .JP_V0 => .nnn
  | .SE_IMM | .SNE_IMM | .LD_IMM | .ADD_IMM | .RND => .xnn
  | .SE_REG | .SNE_REG | .LD_REG | .OR | .AND | .XOR | .ADD_REG | .SUB | .SHR | .SUBN | .SHL => .xy
  | .DRW => .xyn
  | .SKP | .SKNP | .LD_VX_DT | .LD_DT_VX | .LD_ST_VX | .LD_VX_K | .ADD_I | .LD_F | .LD_B
  | .ST_REGS | .LD_REGS => .x

/-- One line of a listing: a mnemonic and its operands as numbers (R80). -/
structure AsmLine where
  mnemonic : Mnemonic
  operands : List Nat
deriving DecidableEq, Repr

/-- How far the operand at each place may range, first value too large (R80: `Vx` one hexadecimal digit, `addr`
0 .. 0xFFF, `byte` 0 .. 0xFF, `n` 0 .. 15). -/
def Format.limits : Format → List Nat
  | .fixed => []
  | .nnn => [0x1000]
  | .xnn => [16, 0x100]
  | .xy => [16, 16]
  | .xyn => [16, 16, 16]
  | .x => [16]

/-- Every operand below its limit, and as many operands as limits. -/
def operandsFit : List Nat → List Nat → Bool
  | [], [] => true
  | v :: vs, l :: ls => decide (v < l) && operandsFit vs ls
  | _, _ => false

/-- The line has the operands its format asks for, each in range. -/
def AsmLine.wellFormed (l : AsmLine) : Bool :=
  operandsFit l.operands l.mnemonic.format.limits

/-- The instruction a line stands for, when it is well formed (R80: one line is one word). -/
def AsmLine.toInstr (l : AsmLine) : Option Instr :=
  if l.wellFormed then
    match l.mnemonic, l.operands with
    | .CLS, _ => some .cls
    | .RET, _ => some .ret
    | .JP, [a] => some (.jp (.ofNat 12 a))
    | .CALL, [a] => some (.call (.ofNat 12 a))
    | .LD_I, [a] => some (.ldI (.ofNat 12 a))
    | .JP_V0, [a] => some (.jpV0 (.ofNat 12 a))
    | .SE_IMM, [x, b] => some (.seImm (.ofNat 16 x) (.ofNat 8 b))
    | .SNE_IMM, [x, b] => some (.sneImm (.ofNat 16 x) (.ofNat 8 b))
    | .LD_IMM, [x, b] => some (.ldImm (.ofNat 16 x) (.ofNat 8 b))
    | .ADD_IMM, [x, b] => some (.addImm (.ofNat 16 x) (.ofNat 8 b))
    | .RND, [x, b] => some (.rnd (.ofNat 16 x) (.ofNat 8 b))
    | .SE_REG, [x, y] => some (.seReg (.ofNat 16 x) (.ofNat 16 y))
    | .SNE_REG, [x, y] => some (.sneReg (.ofNat 16 x) (.ofNat 16 y))
    | .LD_REG, [x, y] => some (.ldReg (.ofNat 16 x) (.ofNat 16 y))
    | .OR, [x, y] => some (.or (.ofNat 16 x) (.ofNat 16 y))
    | .AND, [x, y] => some (.and (.ofNat 16 x) (.ofNat 16 y))
    | .XOR, [x, y] => some (.xor (.ofNat 16 x) (.ofNat 16 y))
    | .ADD_REG, [x, y] => some (.addReg (.ofNat 16 x) (.ofNat 16 y))
    | .SUB, [x, y] => some (.sub (.ofNat 16 x) (.ofNat 16 y))
    | .SHR, [x, y] => some (.shr (.ofNat 16 x) (.ofNat 16 y))
    | .SUBN, [x, y] => some (.subn (.ofNat 16 x) (.ofNat 16 y))
    | .SHL, [x, y] => some (.shl (.ofNat 16 x) (.ofNat 16 y))
    | .DRW, [x, y, n] => some (.drw (.ofNat 16 x) (.ofNat 16 y) (.ofNat 16 n))
    | .SKP, [x] => some (.skp (.ofNat 16 x))
    | .SKNP, [x] => some (.sknp (.ofNat 16 x))
    | .LD_VX_DT, [x] => some (.ldVxDt (.ofNat 16 x))
    | .LD_DT_VX, [x] => some (.ldDtVx (.ofNat 16 x))
    | .LD_ST_VX, [x] => some (.ldStVx (.ofNat 16 x))
    | .LD_VX_K, [x] => some (.ldVxK (.ofNat 16 x))
    | .ADD_I, [x] => some (.addI (.ofNat 16 x))
    | .LD_F, [x] => some (.ldF (.ofNat 16 x))
    | .LD_B, [x] => some (.ldB (.ofNat 16 x))
    | .ST_REGS, [x] => some (.stRegs (.ofNat 16 x))
    | .LD_REGS, [x] => some (.ldRegs (.ofNat 16 x))
    | _, _ => none
  else none

/-- The line that stands for an instruction. -/
def Instr.toAsm (i : Instr) : AsmLine := ⟨i.mnemonic, i.operands⟩

/-- Every operand of the instruction lies in the range its format gives it (R72, R80). -/
abbrev Instr.WellFormed (i : Instr) : Prop := i.toAsm.wellFormed = true

end Sys2Proof
end

