-- ==== Sys2Proof/Decode.lean ====
section
/-! DEFINITION. The decoder, total on any bytes, and the encoder (30_encoding.md R70 to R79; 40_step_cycle.md R93). -/

namespace Sys2Proof

/-- The family nibble, bits 15:12 (R72). -/
def family (w : Word) : BitVec 4 := w.extractLsb' 12 4

/-- The register field `X`, bits 11:8 (R72). -/
def fieldX (w : Word) : Reg := (w.extractLsb' 8 4).toFin

/-- The register field `Y`, bits 7:4 (R72). -/
def fieldY (w : Word) : Reg := (w.extractLsb' 4 4).toFin

/-- The count field `N`, bits 3:0 (R72). -/
def fieldN (w : Word) : Fin 16 := (w.extractLsb' 0 4).toFin

/-- The immediate field `NN`, bits 7:0 (R72). -/
def fieldNN (w : Word) : Byte := w.extractLsb' 0 8

/-- The address field `NNN`, bits 11:0 (R72). -/
def fieldNNN (w : Word) : Addr := w.extractLsb' 0 12

/-- The sub-opcode of families 5, 8 and 9, bits 3:0 (R73). -/
def subOpcode (w : Word) : BitVec 4 := w.extractLsb' 0 4

/-- Family 0 is selected by the whole word (R73). -/
def decodeFamily0 (w : Word) : Option Instr :=
  if w = 0x00E0#16 then some .cls
  else if w = 0x00EE#16 then some .ret
  else none

/-- Family 8, selected by bits 3:0 (R73, R75). -/
def decodeFamily8 (w : Word) : Option Instr :=
  match subOpcode w with
  | 0x0#4 => some (.ldReg (fieldX w) (fieldY w))
  | 0x1#4 => some (.or (fieldX w) (fieldY w))
  | 0x2#4 => some (.and (fieldX w) (fieldY w))
  | 0x3#4 => some (.xor (fieldX w) (fieldY w))
  | 0x4#4 => some (.addReg (fieldX w) (fieldY w))
  | 0x5#4 => some (.sub (fieldX w) (fieldY w))
  | 0x6#4 => some (.shr (fieldX w) (fieldY w))
  | 0x7#4 => some (.subn (fieldX w) (fieldY w))
  | 0xE#4 => some (.shl (fieldX w) (fieldY w))
  | _ => none

/-- Family E, selected by bits 7:0 (R73, R75). -/
def decodeFamilyE (w : Word) : Option Instr :=
  if fieldNN w = 0x9E#8 then some (.skp (fieldX w))
  else if fieldNN w = 0xA1#8 then some (.sknp (fieldX w))
  else none

/-- Family F, selected by bits 7:0 (R73, R75). -/
def decodeFamilyF (w : Word) : Option Instr :=
  if fieldNN w = 0x07#8 then some (.ldVxDt (fieldX w))
  else if fieldNN w = 0x0A#8 then some (.ldVxK (fieldX w))
  else if fieldNN w = 0x15#8 then some (.ldDtVx (fieldX w))
  else if fieldNN w = 0x18#8 then some (.ldStVx (fieldX w))
  else if fieldNN w = 0x1E#8 then some (.addI (fieldX w))
  else if fieldNN w = 0x29#8 then some (.ldF (fieldX w))
  else if fieldNN w = 0x33#8 then some (.ldB (fieldX w))
  else if fieldNN w = 0x55#8 then some (.stRegs (fieldX w))
  else if fieldNN w = 0x65#8 then some (.ldRegs (fieldX w))
  else none

/-- The instruction of an opcode, or nothing for an unknown one: the family nibble first, then the further
selector of the family (R73). A function of the word alone (R76, R93). -/
def decodeOpcode (w : Word) : Option Instr :=
  match family w with
  | 0x0#4 => decodeFamily0 w
  | 0x1#4 => some (.jp (fieldNNN w))
  | 0x2#4 => some (.call (fieldNNN w))
  | 0x3#4 => some (.seImm (fieldX w) (fieldNN w))
  | 0x4#4 => some (.sneImm (fieldX w) (fieldNN w))
  | 0x5#4 => if subOpcode w = 0x0#4 then some (.seReg (fieldX w) (fieldY w)) else none
  | 0x6#4 => some (.ldImm (fieldX w) (fieldNN w))
  | 0x7#4 => some (.addImm (fieldX w) (fieldNN w))
  | 0x8#4 => decodeFamily8 w
  | 0x9#4 => if subOpcode w = 0x0#4 then some (.sneReg (fieldX w) (fieldY w)) else none
  | 0xA#4 => some (.ldI (fieldNNN w))
  | 0xB#4 => some (.jpV0 (fieldNNN w))
  | 0xC#4 => some (.rnd (fieldX w) (fieldNN w))
  | 0xD#4 => some (.drw (fieldX w) (fieldY w) (fieldN w))
  | 0xE#4 => decodeFamilyE w
  | 0xF#4 => decodeFamilyF w
  | _ => none

/-- `Decode(w)` with its refusal named: an opcode matching no row is unknown (R77, R93). -/
def decodeWord (w : Word) : Except DecodeError Instr :=
  match decodeOpcode w with
  | some i => .ok i
  | none => .error (.unknownOpcode w)

/-- The opcode of two consecutive bytes, the high byte at the lower address (R50). -/
def opcodeOf (hi lo : Byte) : Word := hi ++ lo

/-- Decode the first instruction of a sequence of bytes and return the bytes after it (R50, R70). -/
def decode : List Byte → Except DecodeError (Instr × List Byte)
  | hi :: lo :: rest => (decodeWord (opcodeOf hi lo)).map fun i => (i, rest)
  | _ => .error .truncated

/-- The high byte of an opcode, the one stored at the lower address (R50). -/
def highByte (w : Word) : Byte := w.extractLsb' 8 8

/-- The low byte of an opcode (R50). -/
def lowByte (w : Word) : Byte := w.extractLsb' 0 8

/-- A register index as the 4 bits of its field (R72). -/
def nibble (r : Fin 16) : BitVec 4 := BitVec.ofFin r

/-- Family, X, NN (format XNN, R71). -/
def encodeXNN (fam : BitVec 4) (x : Reg) (nn : Byte) : Word := fam ++ nibble x ++ nn

/-- Family, X, Y, sub-opcode or N (formats XY and XYN, R71). -/
def encodeXYN (fam : BitVec 4) (x y : Reg) (n : BitVec 4) : Word := fam ++ nibble x ++ nibble y ++ n

/-- Family, NNN (format NNN, R71). -/
def encodeNNN (fam : BitVec 4) (nnn : Addr) : Word := fam ++ nnn

/-- The opcode of an instruction, written from the patterns of R75 and the formats of R71. -/
def encode : Instr → Word
  | .cls => 0x00E0
  | .ret => 0x00EE
  | .jp nnn => encodeNNN 0x1 nnn
  | .call nnn => encodeNNN 0x2 nnn
  | .seImm x nn => encodeXNN 0x3 x nn
  | .sneImm x nn => encodeXNN 0x4 x nn
  | .seReg x y => encodeXYN 0x5 x y 0x0
  | .sneReg x y => encodeXYN 0x9 x y 0x0
  | .ldImm x nn => encodeXNN 0x6 x nn
  | .addImm x nn => encodeXNN 0x7 x nn
  | .ldReg x y => encodeXYN 0x8 x y 0x0
  | .or x y => encodeXYN 0x8 x y 0x1
  | .and x y => encodeXYN 0x8 x y 0x2
  | .xor x y => encodeXYN 0x8 x y 0x3
  | .addReg x y => encodeXYN 0x8 x y 0x4
  | .sub x y => encodeXYN 0x8 x y 0x5
  | .shr x y => encodeXYN 0x8 x y 0x6
  | .subn x y => encodeXYN 0x8 x y 0x7
  | .shl x y => encodeXYN 0x8 x y 0xE
  | .ldI nnn => encodeNNN 0xA nnn
  | .jpV0 nnn => encodeNNN 0xB nnn
  | .rnd x nn => encodeXNN 0xC x nn
  | .drw x y n => encodeXYN 0xD x y (nibble n)
  | .skp x => encodeXNN 0xE x 0x9E
  | .sknp x => encodeXNN 0xE x 0xA1
  | .ldVxDt x => encodeXNN 0xF x 0x07
  | .ldDtVx x => encodeXNN 0xF x 0x15
  | .ldStVx x => encodeXNN 0xF x 0x18
  | .ldVxK x => encodeXNN 0xF x 0x0A
  | .addI x => encodeXNN 0xF x 0x1E
  | .ldF x => encodeXNN 0xF x 0x29
  | .ldB x => encodeXNN 0xF x 0x33
  | .stRegs x => encodeXNN 0xF x 0x55
  | .ldRegs x => encodeXNN 0xF x 0x65

/-- The two bytes of an instruction as they lie in memory (R50). -/
def encodeBytes (i : Instr) : List Byte := [highByte (encode i), lowByte (encode i)]

/-- The match and mask columns of the opcode map (R75). The decoder does not use them: they are the second
description of the same map, against which it is stated. -/
def Mnemonic.row : Mnemonic → OpRow
  | .CLS => ⟨0x00E0, 0xFFFF, .fixed⟩
  | .RET => ⟨0x00EE, 0xFFFF, .fixed⟩
  | .JP => ⟨0x1000, 0xF000, .nnn⟩
  | .CALL => ⟨0x2000, 0xF000, .nnn⟩
  | .SE_IMM => ⟨0x3000, 0xF000, .xnn⟩
  | .SNE_IMM => ⟨0x4000, 0xF000, .xnn⟩
  | .SE_REG => ⟨0x5000, 0xF00F, .xy⟩
  | .SNE_REG => ⟨0x9000, 0xF00F, .xy⟩
  | .LD_IMM => ⟨0x6000, 0xF000, .xnn⟩
  | .ADD_IMM => ⟨0x7000, 0xF000, .xnn⟩
  | .LD_REG => ⟨0x8000, 0xF00F, .xy⟩
  | .OR => ⟨0x8001, 0xF00F, .xy⟩
  | .AND => ⟨0x8002, 0xF00F, .xy⟩
  | .XOR => ⟨0x8003, 0xF00F, .xy⟩
  | .ADD_REG => ⟨0x8004, 0xF00F, .xy⟩
  | .SUB => ⟨0x8005, 0xF00F, .xy⟩
  | .SHR => ⟨0x8006, 0xF00F, .xy⟩
  | .SUBN => ⟨0x8007, 0xF00F, .xy⟩
  | .SHL => ⟨0x800E, 0xF00F, .xy⟩
  | .LD_I => ⟨0xA000, 0xF000, .nnn⟩
  | .JP_V0 => ⟨0xB000, 0xF000, .nnn⟩
  | .RND => ⟨0xC000, 0xF000, .xnn⟩
  | .DRW => ⟨0xD000, 0xF000, .xyn⟩
  | .SKP => ⟨0xE09E, 0xF0FF, .x⟩
  | .SKNP => ⟨0xE0A1, 0xF0FF, .x⟩
  | .LD_VX_DT => ⟨0xF007, 0xF0FF, .x⟩
  | .LD_DT_VX => ⟨0xF015, 0xF0FF, .x⟩
  | .LD_ST_VX => ⟨0xF018, 0xF0FF, .x⟩
  | .LD_VX_K => ⟨0xF00A, 0xF0FF, .x⟩
  | .ADD_I => ⟨0xF01E, 0xF0FF, .x⟩
  | .LD_F => ⟨0xF029, 0xF0FF, .x⟩
  | .LD_B => ⟨0xF033, 0xF0FF, .x⟩
  | .ST_REGS => ⟨0xF055, 0xF0FF, .x⟩
  | .LD_REGS => ⟨0xF065, 0xF0FF, .x⟩

/-- An opcode is the instruction of a row when its bits under the row's mask are the row's (R75). -/
abbrev Mnemonic.Matches (m : Mnemonic) (w : Word) : Prop := w &&& m.row.mask = m.row.bits

/-- What the decoder reads from an opcode-table row's bits `w`, numbered as the table numbers them: the one
16-bit word, bits above `nbits` zero, laid out high byte first as the hardware stores it (R50, R71). -/
def decodeTableWord (nbits w : Nat) : Option Instr :=
  let op := BitVec.ofNat 16 (w % 2 ^ nbits)
  match decode [highByte op, lowByte op] with
  | .ok (i, _) => some i
  | .error _ => none

end Sys2Proof
end

