-- ==== Sys2Proof/Machine/State.lean ====
section
/-! DEFINITION. The state of the machine (10_state.md R42), its faults and refusals, and the state after reset. -/

namespace Sys2Proof.Machine

/-- The run state (R30). `ktarget`, the register a waiting FX0A named, exists only while the machine waits (R32). -/
inductive Mode where
  /-- Post-reset idle, before a program is loaded. -/
  | halted
  /-- Fetch, decode, execute proceeds. -/
  | ready
  /-- Only a key-press event advances; it will write register `ktarget`. -/
  | awaitingKey (ktarget : Reg)
deriving DecidableEq, Repr

/-- What the driver or the environment does next: the five operations of 00_scope.md R11, and a change of the key
levels by the environment (R14, R17). -/
inductive Event where
  /-- `Step()` (R90). -/
  | step
  /-- `Tick()` (R207). -/
  | tick
  /-- `KeyPress(k)`, k of 4 bits (R198). -/
  | keyPress (k : Key)
  /-- `Reset()` (R230). -/
  | reset
  /-- `Load(bytes)` (R238). -/
  | load (bytes : List Byte)
  /-- The environment sets the sixteen key levels (R14, R199). -/
  | setKeys (levels : BitVec Config.numKeys)
deriving DecidableEq, Repr

/-- The bytes of `Mem` that differ from what an unlisted address reads as, addresses strictly rising (R37;
`Memory.wf` in Ops). -/
abbrev Memory := List Host.Cell

/-- `FB`: `DISPLAY_H` rows, the top row first, one bit a pixel; bit x of a row is the pixel in column x (R13, R38). -/
abbrev FrameBuffer := Vector (BitVec Config.displayW) Config.displayH

/-- The whole state (R42). `draws` and `schedule` are the model's own, not the spec's (log 3, log 1). -/
structure State where
  /-- V0 to VF (R20); VF is a plain element (R22). -/
  v : Vector (BitVec Config.regW) Config.numRegs
  /-- PC (R23). -/
  pc : BitVec Config.pcW
  /-- I (R27). -/
  i : BitVec Config.iW
  /-- DT, the delay timer (R28). -/
  dt : BitVec Config.timerW
  /-- ST, the sound timer (R29). -/
  st : BitVec Config.timerW
  /-- The run state, with `ktarget` (R30, R32). -/
  mode : Mode
  /-- The valid entries of the call stack, oldest first (R34, R35). -/
  stack : List (BitVec Config.stackW)
  /-- `Mem` (R37). -/
  mem : Memory
  /-- `FB` (R38). -/
  fb : FrameBuffer
  /-- `Keys`, bit k is key k, 1 held down (R14, R39). -/
  keys : BitVec Config.numKeys
  /-- How many random bytes have been drawn (R16; log 3). -/
  draws : Nat
  /-- The events still to come, the next one first; with none, the driver issues `Step()` (R200, R209; log 1). -/
  schedule : List Event
deriving DecidableEq, Repr

/-- The four errors of 60_exceptions.md R190. Each ends the model's run and none changes the state (R202, R204;
log 6): safe, since nothing is proved of what a driver does afterwards. -/
inductive Fault where
  /-- Raised by `Load` of an image that does not fit (R192). Safe: the state it leaves is `loadState` (R239). -/
  | programTooLarge
  /-- Raised by CALL with a full stack (R193). Safe. -/
  | stackOverflow
  /-- Raised by RET with an empty stack (R194). Safe. -/
  | stackUnderflow
  /-- Raised by the fetch, DRW, LD_B, ST_REGS, LD_REGS at an address outside memory (R195). Safe. -/
  | outOfBoundsAccess
deriving DecidableEq, Repr

/-- No instruction of this hardware is refused: every word executes (30_encoding.md R79). -/
inductive Refusal where
  /-- An instruction that has no meaning yet, by mnemonic; raised by `exec` alone, and by no arm of it now. Safe. -/
  | notModelled (mnemonic : String)
deriving DecidableEq, Repr

/-- The answer of one step. -/
abbrev Result := Host.Outcome State Fault Refusal

/-- The machine right after reset (R42, R230): every item at the value the spec gives. The spec gives none for the
display and the key levels, which `Reset()` does not write (R236): DESIGN CHOICE all unlit (log 4), none held (log 5).
`draws` and `schedule` are the model's own: DESIGN CHOICE 0 (log 3), empty (log 1). -/
def State.reset : State where
  v := Vector.replicate Config.numRegs 0
  pc := BitVec.ofNat Config.pcW Config.progBase
  i := 0
  dt := 0
  st := 0
  mode := .halted
  stack := []
  mem := []
  fb := Vector.replicate Config.displayH 0
  keys := 0
  draws := 0
  schedule := []

end Sys2Proof.Machine
end

