-- ==== Sys2Proof/Machine/Ops.lean ====
section
/-! DEFINITION. The shared operations: memory, registers, the call stack, the frame buffer, the keys, raising an
error, and committing a step (00_scope.md R10 to R16; 10_state.md R36; 20_memory.md R57; 60_exceptions.md R202). -/

namespace Sys2Proof.Machine

/-! ### Memory (R12, R37) -/

/-- What an address that the list does not name holds: the reset contents, `FONT[a]` in the font and 0 elsewhere
(R232; log 10). -/
def Memory.unlisted (a : Nat) : Byte :=
  if Config.fontBase ≤ a then Config.font.getD (a - Config.fontBase) 0 else 0

/-- `MemRead(a, 1)` (R12). The caller has checked the bound. -/
def Memory.read : Memory → Nat → Byte
  | [], a => Memory.unlisted a
  | c :: m, a => if c.1 = a then c.2 else Memory.read m a

/-- The cell for address `a` in front of the cells above it, or nothing when `b` is what `a` reads as unlisted. -/
def Memory.place (a : Nat) (b : Byte) (m : Memory) : Memory :=
  if b = Memory.unlisted a then m else (a, b) :: m

/-- `MemWrite(a, 1, b)` (R12), keeping the canonical form. The caller has checked the bound. -/
def Memory.write : Memory → Nat → Byte → Memory
  | [], a, b => Memory.place a b []
  | c :: m, a, b =>
    if a < c.1 then Memory.place a b (c :: m)
    else if a = c.1 then Memory.place a b m
    else c :: Memory.write m a b

/-- The canonical form: addresses strictly rising and inside memory, and no entry that says what an unlisted
address reads as anyway. -/
abbrev Memory.wf (m : Memory) : Prop :=
  m.Pairwise (fun c d => c.1 < d.1) ∧ ∀ c ∈ m, c.1 < Config.memSize ∧ c.2 ≠ Memory.unlisted c.1

/-- Bytes stored at rising addresses from `base` (R51, R238). -/
def Memory.writeBytes (m : Memory) (base : Nat) : List Byte → Memory
  | [] => m
  | b :: bs => Memory.writeBytes (m.write base b) (base + 1) bs

/-- The memory that `MemClear()` leaves: 0 at every address (R12). Outside the font an unlisted address reads 0
already, so only font addresses can need a cell. -/
def Memory.cleared : Memory :=
  Memory.writeBytes [] Config.fontBase (List.replicate Config.fontLen 0)

/-- The memory that `Reset()` leaves: cleared, then the font written at `FONT_BASE` (R230; 90_conflicts.md C2). -/
def Memory.afterReset : Memory :=
  Memory.writeBytes Memory.cleared Config.fontBase Config.font

/-- The byte at an address (R12). -/
def State.readByte (s : State) (a : Nat) : Byte := s.mem.read a

/-- The state with one byte stored (R12). -/
def State.writeByte (s : State) (a : Nat) (b : Byte) : State := { s with mem := s.mem.write a b }

/-! ### General registers (R10, R20) -/

/-- `V[r]` (R10). -/
def State.getV (s : State) (r : Reg) : Byte := s.v[r.val]

/-- `V[r] <- b` (R10). -/
def State.setV (s : State) (r : Reg) (b : Byte) : State := { s with v := s.v.set r.val b }

/-! ### Raising an error and committing a step (R94, R202, R203) -/

/-- Raising an error, the machine's only exception: the operation stops, no write of it takes effect, nothing is
saved, no vector is taken and the mode is not changed (R202, R203). The error kind is the result of the operation.
There is no return from an error to model (R204). -/
def raise (f : Fault) : Result := .fault f

/-- The end of a body: its writes take effect together, or it raised (R94). -/
def commit : Except Fault State → Result
  | .ok t => .next t
  | .error f => raise f

/-! ### The call stack (R34 to R36) -/

/-- `SP`, the number of valid entries (R35). -/
def State.sp (s : State) : Nat := s.stack.length

/-- `Push(v)` (R36). A full stack is `SP` at `STACK_DEPTH`; no reachable state has more (log 21). -/
def State.push (s : State) (a : Word) : Except Fault State :=
  if Config.stackDepth ≤ s.sp then .error .stackOverflow
  else .ok { s with stack := s.stack ++ [a] }

/-- `Pop()` (R36): the newest entry and the state without it. -/
def State.pop (s : State) : Except Fault (Word × State) :=
  match s.stack.getLast? with
  | none => .error .stackUnderflow
  | some a => .ok (a, { s with stack := s.stack.dropLast })

/-! ### Bounds (R57) -/

/-- An access to the `count` bytes from `base` stays inside memory. No byte is no access (R53, R57, R152). The sum
is over the unbounded naturals. -/
abbrev InMemory (base count : Nat) : Prop := count = 0 ∨ base + count ≤ Config.memSize

/-- An instruction that accesses `count` bytes from `base`: the whole range is checked before anything is written
(R57, R94). -/
def accessing (base count : Nat) (t : State) : Result :=
  if InMemory base count then .next t else raise .outOfBoundsAccess

/-- `Fetch()` (R91): both bytes of the opcode at PC, or `OutOfBoundsAccess`. No wrap, no alignment (R52). -/
def fetch (s : State) : Except Fault Word :=
  if s.pc.toNat + 1 < Config.memSize then
    .ok (s.readByte s.pc.toNat ++ s.readByte (s.pc.toNat + 1))
  else .error .outOfBoundsAccess

/-- The PC advance before the body (R92). -/
def State.advance (s : State) : State := { s with pc := s.pc + 2 }

/-! ### The display (R13) -/

/-- `FB[y mod DISPLAY_H][x mod DISPLAY_W]`: the pixel the Display reduces `(x, y)` to. -/
def FrameBuffer.pixel (fb : FrameBuffer) (x y : Nat) : Bool :=
  (fb[y % Config.displayH]'(Nat.mod_lt _ (by decide))).getLsbD (x % Config.displayW)

/-- `DisplayToggle(x, y)`: toggle the pixel the Display wraps the coordinates to, and return its NEW value, 1 for
now lit (R13; 90_conflicts.md C6). -/
def FrameBuffer.toggle (fb : FrameBuffer) (x y : Nat) : FrameBuffer × Bool :=
  let row := fb[y % Config.displayH]'(Nat.mod_lt _ (by decide)) ^^^
    (1#Config.displayW <<< (x % Config.displayW))
  (fb.set (y % Config.displayH) row (Nat.mod_lt _ (by decide)), row.getLsbD (x % Config.displayW))

/-- `DisplayClear()` (R13). -/
def FrameBuffer.clear : FrameBuffer := Vector.replicate Config.displayH 0

/-- Pixel (x, y) of the display (R38). -/
def State.pixel (s : State) (x y : Nat) : Bool := s.fb.pixel x y

/-! ### Keys, tone, random (R14 to R16) -/

/-- `KeyDown(k)`: the level of key k, and 0 for an index above 15 (R14). -/
def State.keyDown (s : State) (k : Byte) : Bool :=
  if k.toNat < Config.numKeys then s.keys.getLsbD k.toNat else false

/-- `tone_on`, the level output: on exactly while ST is not 0 (R15). -/
def State.toneOn (s : State) : Bool := s.st != 0

/-- `Random()`: the free byte of this draw, and the state in which it is drawn (R16; log 3). -/
def State.random (s : State) : Byte × State :=
  (Config.randomByte s.draws, { s with draws := s.draws + 1 })

end Sys2Proof.Machine
end

