-- ==== Sys2Proof/Machine/Flags.lean ====
section
/-! DEFINITION. The flag computations (10_state.md R25): what VF receives, from the operands as they were before the
instruction, always the number 0 or 1. -/

namespace Sys2Proof.Machine

/-- A condition as a flag value. -/
def flag (b : Bool) : Byte := if b then 1 else 0

/-- 8XY4: the unsigned sum exceeds 255 (R127). -/
def carryFlag (a b : Byte) : Byte := flag (decide (255 < a.toNat + b.toNat))

/-- 8XY5 and 8XY7: the minuend is strictly greater than the subtrahend (R128, R130). -/
def greaterFlag (minuend subtrahend : Byte) : Byte := flag (decide (subtrahend.toNat < minuend.toNat))

/-- 8XY6: bit 0 of the source (R129). -/
def shiftRightFlag (src : Byte) : Byte := flag (src.getLsbD 0)

/-- 8XYE: bit 7 of the source (R131). -/
def shiftLeftFlag (src : Byte) : Byte := flag (src.getLsbD 7)

/-- Result to VX, then the flag to VF: the flag is written last, so with X = F it is what remains (R26). -/
def State.writeFlagged (s : State) (x : Reg) (result flagValue : Byte) : State :=
  (s.setV x result).setV VF flagValue

end Sys2Proof.Machine
end

