-- ==== Sys2Proof/Machine/Operands.lean ====
section
/-! DEFINITION. Operand forms: the shifted source, zero-extended addresses, register ranges, decimal digits
(30_encoding.md R74; 43_alu.md R129; 48_memory_ops.md R180 to R182). -/

namespace Sys2Proof.Machine

/-- The source of 8XY6 and 8XYE: VX or VY as `SHIFT_SRC` says (R129, R131). -/
def State.shiftSource (s : State) (src : Config.ShiftSrc) (x y : Reg) : Byte :=
  match src with
  | .vx => s.getV x
  | .vy => s.getV y

/-- A 12-bit address zero-extended to a 16-bit register (R74). -/
def extendAddr (nnn : Addr) : Word := nnn.setWidth 16

/-- A register value zero-extended to 16 bits (R103, R141). -/
def extendByte (b : Byte) : Word := b.setWidth 16

/-- The base of a data access: I as an unbounded natural (R57; 48_memory_ops.md). -/
def State.base (s : State) : Nat := s.i.toNat

/-- The address of the glyph of digit `d`: no mask, whatever the digit (R142). -/
def glyphAddr (d : Byte) : Word := BitVec.ofNat 16 (Config.fontBase + Config.glyphStride * d.toNat)

/-- The decimal digits of a byte: hundreds, tens, ones, one byte each (R180). -/
def decimalDigits (b : Byte) : List Byte :=
  [BitVec.ofNat 8 (b.toNat / 100), BitVec.ofNat 8 (b.toNat / 10 % 10), BitVec.ofNat 8 (b.toNat % 10)]

/-- The `count` registers from V0, in order (R181). -/
def State.registers (s : State) (count : Nat) : List Byte := s.v.toList.take count

/-- `V[k] <- Mem[base + k]` for k = 0 .. `count` - 1, in that order (R182). -/
def State.loadRegisters (s : State) (base : Nat) : Nat → State
  | 0 => s
  | k + 1 => (s.loadRegisters base k).setV (Fin.ofNat 16 k) (s.readByte (base + k))

/-- `PC <- PC + 2` when the condition holds (42_skips.md R110). -/
def State.skipIf (s : State) (c : Bool) : State := if c then { s with pc := s.pc + 2 } else s

end Sys2Proof.Machine
end

