-- ==== Sys2Proof/Machine/Alu.lean ====
section
/-! DEFINITION. Register data operations: 6XNN, 7XNN, 8XY0 to 8XY7, 8XYE, CXNN (43_alu.md). All sources are read from
the state before anything is written (10_state.md R26). -/

namespace Sys2Proof.Machine

/-- 6XNN, `LD_IMM` (R121). -/
def execLdImm (x : Reg) (nn : Byte) (s : State) : Result := .next (s.setV x nn)

/-- 7XNN, `ADD_IMM`: wraps modulo 256, no flag (R122). -/
def execAddImm (x : Reg) (nn : Byte) (s : State) : Result := .next (s.setV x (s.getV x + nn))

/-- 8XY0, `LD_REG` (R123). -/
def execLdReg (x y : Reg) (s : State) : Result := .next (s.setV x (s.getV y))

/-- 8XY1, `OR`: VF is left alone (R124). -/
def execOr (x y : Reg) (s : State) : Result := .next (s.setV x (s.getV x ||| s.getV y))

/-- 8XY2, `AND`: VF is left alone (R125). -/
def execAnd (x y : Reg) (s : State) : Result := .next (s.setV x (s.getV x &&& s.getV y))

/-- 8XY3, `XOR`: VF is left alone (R126). -/
def execXor (x y : Reg) (s : State) : Result := .next (s.setV x (s.getV x ^^^ s.getV y))

/-- 8XY4, `ADD_REG` (R127). -/
def execAddReg (x y : Reg) (s : State) : Result :=
  .next (s.writeFlagged x (s.getV x + s.getV y) (carryFlag (s.getV x) (s.getV y)))

/-- 8XY5, `SUB` (R128). -/
def execSub (x y : Reg) (s : State) : Result :=
  .next (s.writeFlagged x (s.getV x - s.getV y) (greaterFlag (s.getV x) (s.getV y)))

/-- 8XY7, `SUBN` (R130). -/
def execSubn (x y : Reg) (s : State) : Result :=
  .next (s.writeFlagged x (s.getV y - s.getV x) (greaterFlag (s.getV y) (s.getV x)))

/-- The right shift for either value of `SHIFT_SRC` (R129). -/
def State.shiftRight (s : State) (src : Config.ShiftSrc) (x y : Reg) : State :=
  s.writeFlagged x (s.shiftSource src x y >>> 1) (shiftRightFlag (s.shiftSource src x y))

/-- 8XY6, `SHR` (R129). -/
def execShr (x y : Reg) (s : State) : Result := .next (s.shiftRight Config.shiftSrc x y)

/-- The left shift for either value of `SHIFT_SRC` (R131). -/
def State.shiftLeft (s : State) (src : Config.ShiftSrc) (x y : Reg) : State :=
  s.writeFlagged x (s.shiftSource src x y <<< 1) (shiftLeftFlag (s.shiftSource src x y))

/-- 8XYE, `SHL` (R131). -/
def execShl (x y : Reg) (s : State) : Result := .next (s.shiftLeft Config.shiftSrc x y)

/-- CXNN for a drawn byte `r` (R132). -/
def State.writeMasked (s : State) (x : Reg) (nn r : Byte) : State := s.setV x (r &&& nn)

/-- CXNN, `RND`: the draw is a free value (R132; log 3). -/
def execRnd (x : Reg) (nn : Byte) (s : State) : Result :=
  .next (s.random.2.writeMasked x nn s.random.1)

end Sys2Proof.Machine
end

