-- ==== Sys2Proof/Machine/Control.lean ====
section
/-! DEFINITION. Control transfer: 00EE, 1NNN, 2NNN, BNNN (41_control_flow.md). In every body PC already holds the
address of the next sequential instruction (R92). -/

namespace Sys2Proof.Machine

/-- `PC <- target` (R10). No target is checked (R196). -/
def State.jump (s : State) (target : Word) : State := { s with pc := target }

/-- 00EE, `RET`: pop the stack into PC; an empty stack raises `StackUnderflow` (R100). -/
def execRet (s : State) : Result := commit (s.pop.map fun p => p.2.jump p.1)

/-- 1NNN, `JP` (R101). -/
def execJp (nnn : Addr) (s : State) : Result := .next (s.jump (extendAddr nnn))

/-- 2NNN, `CALL`: push the address after the call, then jump; a full stack raises `StackOverflow` (R102). -/
def execCall (nnn : Addr) (s : State) : Result :=
  commit ((s.push s.pc).map fun t => t.jump (extendAddr nnn))

/-- BNNN, `JP_V0`: PC becomes NNN + V0, not reduced modulo 4096 (R103). -/
def execJpV0 (nnn : Addr) (s : State) : Result :=
  .next (s.jump (extendAddr nnn + extendByte (s.getV 0)))

end Sys2Proof.Machine
end

