-- ==== Sys2Proof/Machine/Display.lean ====
section
/-! DEFINITION. Display operations: 00E0, DXYN (45_display.md). -/

namespace Sys2Proof.Machine

/-- 00E0, `CLS` (R150). -/
def execCls (s : State) : Result := .next { s with fb := FrameBuffer.clear }

/-- One sprite pixel: a 1 bit toggles the display pixel at `(x, y)`, and a returned 0 is a collision; a 0 bit
leaves the pixel alone (R151, R152). The pair is the frame buffer and the collision found so far. -/
def drawPixel (p : FrameBuffer × Bool) (lit : Bool) (x y : Nat) : FrameBuffer × Bool :=
  if lit then ((p.1.toggle x y).1, p.2 || !(p.1.toggle x y).2) else p

/-- Columns 0 .. `cols` - 1 of a row byte, bit 7 first, at `(x0 + c, y)` (R151, R152). -/
def drawRow (p : FrameBuffer × Bool) (b : Byte) (x0 y : Nat) : Nat → FrameBuffer × Bool
  | 0 => p
  | c + 1 => drawPixel (drawRow p b x0 y c) (b.getLsbD (7 - c)) (x0 + c) y

/-- Rows 0 .. `rows` - 1 of the sprite whose row r is `Mem[base + r]`, top to bottom (R151, R152). -/
def drawRows (p : FrameBuffer × Bool) (mem : Memory) (base x0 y0 : Nat) : Nat → FrameBuffer × Bool
  | 0 => p
  | r + 1 => drawRow (drawRows p mem base x0 y0 r) (mem.read (base + r)) x0 (y0 + r) 8

/-- The draw of `rows` rows with all coordinates and the base read before anything is written (R152). -/
def State.draw (s : State) (x y : Reg) (rows : Nat) : FrameBuffer × Bool :=
  drawRows (s.fb, false) s.mem s.base (s.getV x).toNat (s.getV y).toNat rows

/-- DXYN, `DRW`: the N sprite bytes are checked before any pixel is toggled; VF receives the collision last (R152). -/
def execDrw (x y : Reg) (n : Fin 16) (s : State) : Result :=
  accessing s.base n.val
    ({ s with fb := (s.draw x y n.val).1 }.setV VF (flag (s.draw x y n.val).2))

end Sys2Proof.Machine
end

