-- ==== Sys2Proof/Machine/Index.lean ====
section
/-! DEFINITION. Index register operations: ANNN, FX1E, FX29 (44_index.md). None accesses memory or writes VF. -/

namespace Sys2Proof.Machine

/-- `I <- w` (R10). Any value is legal (R27). -/
def State.setI (s : State) (w : Word) : State := { s with i := w }

/-- ANNN, `LD_I` (R140). -/
def execLdI (nnn : Addr) (s : State) : Result := .next (s.setI (extendAddr nnn))

/-- FX1E, `ADD_I`: wraps modulo 65536 (R141). -/
def execAddI (x : Reg) (s : State) : Result := .next (s.setI (s.i + extendByte (s.getV x)))

/-- FX29, `LD_F` (R142). -/
def execLdF (x : Reg) (s : State) : Result := .next (s.setI (glyphAddr (s.getV x)))

end Sys2Proof.Machine
end

