-- ==== Sys2Proof/Machine/Keys.lean ====
section
/-! DEFINITION. Key operations: EX9E, EXA1, FX0A (46_keys.md). -/

namespace Sys2Proof.Machine

/-- EX9E, `SKP` (R160). -/
def execSkp (x : Reg) (s : State) : Result := .next (s.skipIf (s.keyDown (s.getV x)))

/-- EXA1, `SKNP` (R161). -/
def execSknp (x : Reg) (s : State) : Result := .next (s.skipIf (!s.keyDown (s.getV x)))

/-- FX0A, `LD_VX_K`: enter `AwaitingKey`; VX is written later, by the key-press event (R162). -/
def execLdVxK (x : Reg) (s : State) : Result := .next { s with mode := .awaitingKey x }

end Sys2Proof.Machine
end

