-- ==== Sys2Proof/Machine/MemoryOps.lean ====
section
/-! DEFINITION. Memory operations: FX33, FX55, FX65 (48_memory_ops.md). The whole range is checked first; I is never
modified. -/

namespace Sys2Proof.Machine

/-- The state with bytes stored at rising addresses from I (R51). -/
def State.storeAtI (s : State) (bytes : List Byte) : State :=
  { s with mem := s.mem.writeBytes s.base bytes }

/-- FX33, `LD_B` (R180). -/
def execLdB (x : Reg) (s : State) : Result :=
  accessing s.base 3 (s.storeAtI (decimalDigits (s.getV x)))

/-- FX55, `ST_REGS`: V0 .. VX, inclusive (R181). -/
def execStRegs (x : Reg) (s : State) : Result :=
  accessing s.base (x.val + 1) (s.storeAtI (s.registers (x.val + 1)))

/-- FX65, `LD_REGS`: V0 .. VX, inclusive (R182). -/
def execLdRegs (x : Reg) (s : State) : Result :=
  accessing s.base (x.val + 1) (s.loadRegisters s.base (x.val + 1))

end Sys2Proof.Machine
end

