-- ==== Sys2Proof/Machine/Timers.lean ====
section
/-! DEFINITION. Timer access: FX07, FX15, FX18 (47_timers.md). -/

namespace Sys2Proof.Machine

/-- FX07, `LD_VX_DT` (R170). -/
def execLdVxDt (x : Reg) (s : State) : Result := .next (s.setV x s.dt)

/-- FX15, `LD_DT_VX` (R171). -/
def execLdDtVx (x : Reg) (s : State) : Result := .next { s with dt := s.getV x }

/-- FX18, `LD_ST_VX` (R172). -/
def execLdStVx (x : Reg) (s : State) : Result := .next { s with st := s.getV x }

end Sys2Proof.Machine
end

