-- ==== Sys2Proof/Machine/Driver.lean ====
section
/-! DEFINITION. The five operations of 00_scope.md R11 and the events that call them: `Step()` (40_step_cycle.md R90),
`Tick()` and `KeyPress(k)` (60_exceptions.md R207, R198), `Reset()` and `Load(bytes)` (70_reset_and_hazards.md R230,
R238). -/

namespace Sys2Proof.Machine

/-- Execute(Unknown): nothing (R95). -/
def execUnknown (s : State) : Result := .next s

/-- Decode the fetched word and run its body in the state with PC advanced (R90, R92, R93, R95). -/
def executeWord (w : Word) (s : State) : Result :=
  match decodeWord w with
  | .ok i => exec i s.advance
  | .error _ => execUnknown s.advance

/-- `Step()`: one instruction when `Ready`, nothing when `Halted` or `AwaitingKey` (R90). -/
def stepCycle (s : State) : Result :=
  match s.mode with
  | .halted => .next s
  | .awaitingKey _ => .next s
  | .ready =>
    match fetch s with
    | .ok w => executeWord w s
    | .error f => raise f

/-- A timer after one tick: one less, floored at 0 (R207). -/
def countDown (t : Byte) : Byte := if 0 < t.toNat then t - 1 else t

/-- `Tick()`, in every mode (R207). -/
def State.tick (s : State) : State := { s with dt := countDown s.dt, st := countDown s.st }

/-- `KeyPress(k)`: ends an FX0A wait and is dropped otherwise (R198). -/
def State.keyPress (s : State) (k : Key) : State :=
  match s.mode with
  | .awaitingKey ktarget => { s.setV ktarget (BitVec.ofNat 8 k.val) with mode := .ready }
  | .halted => s
  | .ready => s

/-- `Reset()` (R230). `FB` and `Keys` are not written (R236), nor are the model's own fields. -/
def State.resetOp (s : State) : State :=
  { s with
    v := Vector.replicate Config.numRegs 0
    stack := []
    pc := BitVec.ofNat Config.pcW Config.progBase
    i := 0
    dt := 0
    st := 0
    mode := .halted
    mem := Memory.afterReset }

/-- The image does not fit between `PROG_BASE` and the end of memory (R192, R238). -/
abbrev TooLarge (bytes : List Byte) : Prop := Config.memSize - Config.progBase < bytes.length

/-- The state `Load(bytes)` leaves: reset first; then, if the image fits, its bytes from `PROG_BASE` and `Ready`
(R238); otherwise nothing more (R239). -/
def State.loadState (s : State) (bytes : List Byte) : State :=
  if TooLarge bytes then s.resetOp
  else { s.resetOp with
    mem := s.resetOp.mem.writeBytes Config.progBase bytes
    mode := .ready }

/-- `Load(bytes)` as an operation that ends in a next state or an error (R238). -/
def loadCycle (bytes : List Byte) (s : State) : Result :=
  if TooLarge bytes then raise .programTooLarge else .next (s.loadState bytes)

/-- One event, performed whole (R200). -/
def perform (e : Event) (s : State) : Result :=
  match e with
  | .step => stepCycle s
  | .tick => .next s.tick
  | .keyPress k => .next (s.keyPress k)
  | .reset => .next s.resetOp
  | .load bytes => loadCycle bytes s
  | .setKeys levels => .next { s with keys := levels }

/-- The error kind an answer reports, if any (R191). -/
def Result.error? : Result → Option Fault
  | .next _ => none
  | .fault f => some f
  | .refused _ => none

/-- The error kind the driver receives from an operation (R11, R191). -/
def reported (e : Event) (s : State) : Option Fault := Result.error? (perform e s)

/-- The state an operation leaves, whether or not it raised: a raising `Step()` leaves the state it met (R202), a
failed `Load` the reset state (R239). -/
def performed (e : Event) (s : State) : State :=
  match e with
  | .load bytes => s.loadState bytes
  | _ =>
    match perform e s with
    | .next t => t
    | .fault _ => s
    | .refused _ => s

/-- The 3-bit `err` output (R191). -/
def errorCode : Option Fault → BitVec 3
  | none => 0
  | some .programTooLarge => 1
  | some .stackOverflow => 2
  | some .stackUnderflow => 3
  | some .outOfBoundsAccess => 4

/-- A driver that goes on after errors: the state a sequence of events leaves (R200, R203). -/
def drive (events : List Event) (s : State) : State := events.foldl (fun t e => performed e t) s

/-- The machine's step: the next event of the schedule, or `Step()` when the schedule is empty (R200, R209; log 1). -/
def nextEvent (s : State) : Result :=
  match s.schedule with
  | [] => stepCycle s
  | e :: rest => perform e { s with schedule := rest }

/-- The state in which the next event is the driver's `Step()` and PC is fetchable: PC is kept where it is fetchable
and is the entry point otherwise (R91, R238; log 32). -/
def State.readyToFetch (s : State) : State :=
  { s with
    mode := .ready
    schedule := []
    pc := if s.pc.toNat + 1 < Config.memSize then s.pc else BitVec.ofNat Config.pcW Config.progBase }

/-- The opcode `w` stored at PC, high byte first (R50). -/
def State.placeWord (s : State) (w : Word) : State :=
  (s.writeByte s.pc.toNat (highByte w)).writeByte (s.pc.toNat + 1) (lowByte w)

end Sys2Proof.Machine
end

