-- ==== Sys2Proof/Machine/Step.lean ====
section
/-! DEFINITION. One step of the machine, and the placing of one instruction where it fetches. -/

namespace Sys2Proof.Machine

/-- One step: the next event of the schedule, performed whole; `Step()` when no event is scheduled (R90, R200). -/
def step (s : State) : Host.Outcome State Fault Refusal := nextEvent s

/-- The state with the instruction whose bits are `w` stored where the next step fetches it (log 32): it stands for
a `Load`, without which no program runs (R230, R237, R238). -/
def State.withFetchWord (s : State) (nbits w : Nat) : State :=
  s.readyToFetch.placeWord (BitVec.ofNat 16 (w % 2 ^ nbits))

end Sys2Proof.Machine
end

