-- ==== Sys2Proof/Safety.lean ====
section
/-! DEFINITION. The terms claims use: the invariant of the machine, what it means that an opcode is fetched next, what a
step leaves unchanged, and what a safe step is. -/

namespace Sys2Proof.Machine

/-- The stack holds at most `STACK_DEPTH` return addresses (R35), and each is one that a CALL fetched inside memory
pushed: from 2 up to `MEM_SIZE` (R100, R102). -/
abbrev State.StackOk (s : State) : Prop :=
  s.stack.length ≤ Config.stackDepth ∧ ∀ a ∈ s.stack, 2 ≤ a.toNat ∧ a.toNat ≤ Config.memSize

/-- A halted machine is exactly as `Reset()` left it: only `Reset` enters the mode, and nothing acts in it (R30, R207,
R237). -/
abbrev State.HaltedOk (s : State) : Prop := s.mode = .halted → s = s.resetOp

/-- The invariant of the machine: memory is in canonical form, the stack is sound, PC never exceeds the farthest
jump `0xFFF + 0xFF` (R24, R103), and a halted machine is a reset one. -/
structure State.Inv (s : State) : Prop where
  memory : s.mem.wf
  stack : s.StackOk
  pc : s.pc.toNat ≤ 0x10FE
  halted : s.HaltedOk

/-- The next step is the driver's `Step()` on a ready machine that fetches the opcode `w` (R90, R91). -/
structure State.Fetches (s : State) (w : Word) : Prop where
  ready : s.mode = .ready
  unscheduled : s.schedule = []
  inside : s.pc.toNat + 1 < Config.memSize
  opcode : opcodeOf (s.readByte s.pc.toNat) (s.readByte (s.pc.toNat + 1)) = w

/-- Every byte of memory reads as before. -/
def SameMemory (s t : State) : Prop := ∀ a, t.readByte a = s.readByte a

/-- Every byte of memory outside the `count` bytes from `base` reads as before. -/
def SameMemoryOutside (base count : Nat) (s t : State) : Prop :=
  ∀ a, (a < base ∨ base + count ≤ a) → t.readByte a = s.readByte a

/-- Every general register outside `written` holds what it held. -/
def SameRegistersBut (written : List Reg) (s t : State) : Prop :=
  ∀ r, r ∉ written → t.getV r = s.getV r

/-- Nothing but PC, the general registers and memory may have changed: I, the timers, the run state, the stack, the
display, the keys, the model's own fields. -/
def SameSpecials (s t : State) : Prop :=
  t.i = s.i ∧ t.dt = s.dt ∧ t.st = s.st ∧ t.mode = s.mode ∧ t.stack = s.stack ∧ t.fb = s.fb ∧
    t.keys = s.keys ∧ t.draws = s.draws ∧ t.schedule = s.schedule

/-- Nothing but the registers in `written` has changed. -/
def OnlyRegisters (written : List Reg) (s t : State) : Prop :=
  SameRegistersBut written s t ∧ SameSpecials s t ∧ SameMemory s t ∧ t.pc = s.pc

/-- The general registers an instruction writes: its destination VX or range V0 .. VX, and VF where it writes the
flag (R21, R25). The key-press event, not FX0A, writes the register FX0A names. -/
def destinations : Instr → List Reg
  | .ldImm x _ | .addImm x _ | .ldReg x _ | .or x _ | .and x _ | .xor x _ | .rnd x _ | .ldVxDt x => [x]
  | .addReg x _ | .sub x _ | .shr x _ | .subn x _ | .shl x _ => [x, VF]
  | .drw _ _ _ => [VF]
  | .ldRegs x => (List.finRange 16).filter (· ≤ x)
  | .cls | .ret | .jp _ | .call _ | .seImm _ _ | .sneImm _ _ | .seReg _ _ | .sneReg _ _ | .ldI _ | .jpV0 _
  | .skp _ | .sknp _ | .ldDtVx _ | .ldStVx _ | .ldVxK _ | .addI _ | .ldF _ | .ldB _ | .stRegs _ => []

/-- How many bytes an instruction stores, from the address `s.base` its meaning stores them at (R53). -/
def storedBytes : Instr → Nat
  | .ldB _ => 3
  | .stRegs x => x.val + 1
  | .cls | .ret | .jp _ | .call _ | .seImm _ _ | .sneImm _ _ | .seReg _ _ | .sneReg _ _ | .ldImm _ _
  | .addImm _ _ | .ldReg _ _ | .or _ _ | .and _ _ | .xor _ _ | .addReg _ _ | .sub _ _ | .shr _ _
  | .subn _ _ | .shl _ _ | .ldI _ | .jpV0 _ | .rnd _ _ | .drw _ _ _ | .skp _ | .sknp _ | .ldVxDt _
  | .ldDtVx _ | .ldStVx _ | .ldVxK _ | .addI _ | .ldF _ | .ldRegs _ => 0

/-- What the byte at `a` is, as a number, once FX33 with X = x has completed in `s`: a digit of VX in its three bytes
(R180), and what it was elsewhere. -/
def byteAfterDigits (x : Reg) (s : State) (a : Nat) : Nat :=
  if a = s.i.toNat then (s.getV x).toNat / 100
  else if a = s.i.toNat + 1 then (s.getV x).toNat / 10 % 10
  else if a = s.i.toNat + 2 then (s.getV x).toNat % 10
  else (s.readByte a).toNat

/-- What the byte at `a` is, as a number, once FX55 with X = x has completed in `s`: register k at I + k for every k up
to X (R181), and what it was elsewhere. -/
def byteAfterDump (x : Reg) (s : State) (a : Nat) : Nat :=
  if s.i.toNat ≤ a ∧ a ≤ s.i.toNat + x.val then (s.getV (Fin.ofNat 16 (a - s.i.toNat))).toNat
  else (s.readByte a).toNat

/-- A 1 bit of the sprite of N rows at I lands on the display pixel (px, py), wrapped one pixel at a time (R151,
R152). -/
def SpriteCovers (s : State) (x y : Reg) (n : Fin 16) (px py : Nat) : Prop :=
  ∃ r c, r < n.val ∧ c < 8 ∧ (s.readByte (s.i.toNat + r)).getLsbD (7 - c) = true ∧
    ((s.getV x).toNat + c) % Config.displayW = px ∧ ((s.getV y).toNat + r) % Config.displayH = py

/-- An answer with a change made to its next state, if it has one. -/
def Result.onNext (f : State → State) : Result → Result
  | .next t => .next (f t)
  | .fault e => .fault e
  | .refused q => .refused q

/-- Instruction bodies one after another, up to the first that raises. -/
def execAll : List Instr → State → Result
  | [], s => .next s
  | i :: is, s =>
    match exec i s with
    | .next t => execAll is t
    | .fault f => .fault f
    | .refused q => .refused q

/-- An event that neither resets nor loads: `Step`, `Tick`, a key press, or a change of the key levels (R204, R216). -/
def Event.Ordinary : Event → Prop
  | .step | .tick | .keyPress _ | .setKeys _ => True
  | .reset | .load _ => False

/-- A step that raises no error (R204: a claim about a program takes this as a premise or proves it). -/
def State.Safe (s : State) : Prop := ∃ t, step s = .next t

end Sys2Proof.Machine
end

