-- ==== Sys2Proof/Certificates/Slice0/Obligations.lean ====
section
/-! DEFINITION. The statements for the provers. Each docstring names the rules of spec/ it formalises; a clause that rests
on a choice of the model or on a decision the spec marks as its own says so and names the log entry. -/

open Sys2Proof Sys2Proof.Machine

/-! ### Encoding -/

/-- The fields of an opcode (30_encoding.md R72), and how they overlap. -/
def Obligations.FieldsOfOpcode : Prop :=
  ∀ w : Word,
    (family w).toNat = w.toNat / 4096 ∧ (fieldX w).val = w.toNat / 256 % 16 ∧
    (fieldY w).val = w.toNat / 16 % 16 ∧ (fieldN w).val = w.toNat % 16 ∧
    subOpcode w = nibble (fieldN w) ∧ (fieldNN w).toNat = w.toNat % 256 ∧
    (fieldNNN w).toNat = w.toNat % 4096 ∧
    fieldNNN w = nibble (fieldX w) ++ fieldNN w ∧
    fieldNNN w = nibble (fieldX w) ++ nibble (fieldY w) ++ nibble (fieldN w)

/-- A few words of 95_test_vectors.md section 2.1 and of 00_scope's examples decode to what they stand for; the words
are written out from the patterns of 30_encoding.md R75. -/
def Obligations.WordsDecodeAsTabulated : Prop :=
  decode [0x00, 0xEE, 0x12] = .ok (.ret, [0x12]) ∧ decode [0x2F, 0xFF] = .ok (.call 0xFFF, []) ∧
  decode [0x3A, 0x7F] = .ok (.seImm 0xA 0x7F, []) ∧ decode [0x8A, 0xB7] = .ok (.subn 0xA 0xB, []) ∧
  decode [0x8A, 0xBE] = .ok (.shl 0xA 0xB, []) ∧ decode [0xA1, 0x23] = .ok (.ldI 0x123, []) ∧
  decode [0xD1, 0x25] = .ok (.drw 1 2 5, []) ∧ decode [0xE4, 0x9E] = .ok (.skp 4, []) ∧
  decode [0xF3, 0x18] = .ok (.ldStVx 3, []) ∧ decode [0xF3, 0x55] = .ok (.stRegs 3, []) ∧
  decode [0x51, 0x21] = .error (.unknownOpcode 0x5121) ∧ decode [0x00, 0x00] = .error (.unknownOpcode 0) ∧
  decode [0x60] = .error .truncated

/-- Decoding the bytes of any instruction, whatever follows them, gives it back with every operand, and leaves what
follows. -/
def Obligations.DecodeOfEncodeIsInstruction : Prop :=
  ∀ (i : Instr) (rest : List Byte), i.WellFormed → decode (encodeBytes i ++ rest) = .ok (i, rest)

/-- Every word that decodes is the encoding of what it decodes to: no bit of a known word is ignored. -/
def Obligations.EncodeOfDecodedIsWord : Prop :=
  ∀ (w : Word) (i : Instr), decodeWord w = .ok i → encode i = w

/-- The family-first decoder (R73) selects exactly the row of the opcode map whose mask and match fit the word (R75),
so a word is unknown exactly when no row fits, and no word fits two rows (R76). -/
def Obligations.DecoderSelectsTheMatchingRow : Prop :=
  ∀ w : Word,
    (∀ m : Mnemonic, m.Matches w ↔ ∃ i, decodeWord w = .ok i ∧ i.mnemonic = m) ∧
    (decodeWord w = .error (.unknownOpcode w) ↔ ∀ m : Mnemonic, ¬ m.Matches w) ∧
    (∀ m k : Mnemonic, m.Matches w → k.Matches w → m = k)

/-- The unknown opcodes, family by family (the table of R77). -/
def Obligations.UnknownOpcodesByFamily : Prop :=
  ∀ w : Word, decodeWord w = .error (.unknownOpcode w) ↔
    (w.toNat / 4096 = 0 ∧ w.toNat ≠ 0x0E0 ∧ w.toNat ≠ 0x0EE) ∨
    (w.toNat / 4096 = 5 ∧ w.toNat % 16 ≠ 0) ∨
    (w.toNat / 4096 = 8 ∧ 8 ≤ w.toNat % 16 ∧ w.toNat % 16 ≠ 0xE) ∨
    (w.toNat / 4096 = 9 ∧ w.toNat % 16 ≠ 0) ∨
    (w.toNat / 4096 = 0xE ∧ w.toNat % 256 ∉ [0x9E, 0xA1]) ∨
    (w.toNat / 4096 = 0xF ∧ w.toNat % 256 ∉ [0x07, 0x0A, 0x15, 0x18, 0x1E, 0x29, 0x33, 0x55, 0x65])

/-! ### The step -/

/-- When the two bytes at PC decode to a well-formed instruction, a step of a ready machine whose schedule is empty (log 1)
is `exec` of that instruction in the state with PC advanced by 2, and nothing else. -/
def Obligations.StepRunsDecodedInstruction : Prop :=
  ∀ (s : State) (i : Instr), s.mode = .ready → s.schedule = [] → s.pc.toNat + 1 < Config.memSize →
    decode [s.readByte s.pc.toNat, s.readByte (s.pc.toNat + 1)] = .ok (i, []) → i.WellFormed →
    step s = exec i { s with pc := s.pc + 2 }

/-- `Fetch()` (R91): two bytes at PC and PC + 1, combined high byte first, at any PC, odd or even; `OutOfBoundsAccess`
exactly when the second byte is outside memory, which for 4096 bytes is above 0xFFE. -/
def Obligations.FetchReadsTwoBytesBigEndian : Prop :=
  ∀ s : State,
    (s.pc.toNat ≤ 0xFFE → ∃ w, fetch s = .ok w ∧
      w.toNat = (s.readByte s.pc.toNat).toNat * 256 + (s.readByte (s.pc.toNat + 1)).toNat) ∧
    (0xFFE < s.pc.toNat → fetch s = .error .outOfBoundsAccess) ∧
    (s.pc.toNat ≤ 0xFFE ↔ s.pc.toNat + 1 < Config.memSize)

/-- An unknown opcode advances PC by 2 and does nothing else; it is no error, but the fetch can still raise; the word
0x0000 of zeroed memory is one (R95). -/
def Obligations.UnknownOpcodeOnlyAdvances : Prop :=
  (∀ (s : State) (w : Word) (e : DecodeError), s.Fetches w → decodeWord w = .error e →
    step s = .next { s with pc := s.pc + 2 }) ∧
  (∀ s : State, s.mode = .ready → s.schedule = [] → 0xFFE < s.pc.toNat → step s = .fault .outOfBoundsAccess) ∧
  decodeWord 0x0000 = .error (.unknownOpcode 0x0000) ∧ decodeWord 0x5121 = .error (.unknownOpcode 0x5121)

/-- Every opcode executes, as its instruction or as a no-op: no step of the machine is ever refused. With the shift
source VX the Y field of the shifts selects nothing (R79). -/
def Obligations.EveryWordExecutes : Prop :=
  (∀ (s : State) (q : Refusal), step s ≠ .refused q) ∧
  (∀ (s : State) (w : Word), s.Fetches w →
    (∃ i, decodeWord w = .ok i ∧ step s = exec i { s with pc := s.pc + 2 }) ∨
    (decodeWord w = .error (.unknownOpcode w) ∧ step s = .next { s with pc := s.pc + 2 })) ∧
  (∀ (s : State) (x y z : Reg), s.shiftRight .vx x y = s.shiftRight .vx x z ∧
    s.shiftLeft .vx x y = s.shiftLeft .vx x z)

/-! ### Control transfer -/

/-- 1NNN (R101): the encoding, PC = NNN and nothing else, the idle loop, and the one target whose fetch fails. -/
def Obligations.JumpSetsPc : Prop :=
  (∀ w : Word, w &&& 0xF000 = 0x1000 → decodeWord w = .ok (.jp (fieldNNN w))) ∧
  (∀ (nnn : Addr) (s : State), exec (.jp nnn) s = .next { s with pc := nnn.setWidth 16 }) ∧
  (∀ (nnn : Addr) (s : State), s.Fetches (encode (.jp nnn)) → s.pc.toNat = nnn.toNat → step s = .next s) ∧
  (∀ (nnn : Addr) (s t : State), exec (.jp nnn) s = .next t →
    (fetch t = .error .outOfBoundsAccess ↔ nnn = 0xFFF))

/-- 2NNN (R102): the encoding; with room on the stack, the address after the call is pushed and PC = NNN; with a full
stack, `StackOverflow`, and the whole step writes nothing; sixteen nested calls succeed and the seventeenth raises. -/
def Obligations.CallPushesAndJumps : Prop :=
  (∀ w : Word, w &&& 0xF000 = 0x2000 → decodeWord w = .ok (.call (fieldNNN w))) ∧
  (∀ (nnn : Addr) (s : State), s.sp < 16 →
    exec (.call nnn) s = .next { s with stack := s.stack ++ [s.pc], pc := nnn.setWidth 16 }) ∧
  (∀ (nnn : Addr) (s : State), s.sp = 16 → exec (.call nnn) s = .fault .stackOverflow) ∧
  (∀ (nnn : Addr) (s : State), s.Fetches (encode (.call nnn)) → s.sp = 16 →
    performed .step s = s ∧ reported .step s = some .stackOverflow) ∧
  (∀ (targets : List Addr) (s : State), s.sp = 0 → targets.length = 16 →
    ∃ t, execAll (targets.map .call) s = .next t ∧ t.sp = 16 ∧ ∀ nnn, exec (.call nnn) t = .fault .stackOverflow)

/-- 00EE (R100): the encoding; the newest entry, unchecked, becomes PC and is removed; an empty stack raises
`StackUnderflow`, and the whole step writes nothing; an unfetchable entry raises only at the next fetch, and a call pushes
no unfetchable address but 0xFFF and 0x1000; after a call, the return goes to the instruction following the call site. -/
def Obligations.ReturnPopsIntoPc : Prop :=
  decodeWord 0x00EE = .ok .ret ∧
  (∀ (s : State) (l : List Word) (a : Word), s.stack = l ++ [a] →
    exec .ret s = .next { s with stack := l, pc := a }) ∧
  (∀ s : State, s.sp = 0 → exec .ret s = .fault .stackUnderflow) ∧
  (∀ s : State, s.Fetches 0x00EE → s.sp = 0 →
    performed .step s = s ∧ reported .step s = some .stackUnderflow) ∧
  (∀ (s t : State) (l : List Word) (a : Word), s.stack = l ++ [a] → exec .ret s = .next t →
    (fetch t = .error .outOfBoundsAccess ↔ 0xFFE < a.toNat)) ∧
  (∀ (nnn : Addr) (s t : State) (l : List Word) (a : Word), s.Fetches (encode (.call nnn)) → step s = .next t →
    t.stack = l ++ [a] → 0xFFE < a.toNat →
    (a = 0x0FFF ∧ s.pc = 0xFFD) ∨ (a = 0x1000 ∧ s.pc = 0xFFE)) ∧
  (∀ (nnn : Addr) (s : State), s.Fetches (encode (.call nnn)) → s.sp < 16 →
    ∃ t, step s = .next t ∧ exec .ret t = .next { s with pc := s.pc + 2 })

/-- `00EE` after `2NNN` returns PC to the instruction immediately following the call site, and the stack to what it
was, whatever the subroutine did to the rest of the machine (the property of DOC0 §8 quoted in R100; S4). -/
def Obligations.ReturnUndoesCall : Prop :=
  ∀ (nnn : Addr) (s : State), s.sp < 16 →
    ∃ t, exec (.call nnn) s = .next t ∧ t.sp = s.sp + 1 ∧
      ∀ u : State, u.stack = t.stack → exec .ret u = .next { u with pc := s.pc, stack := s.stack }

/-- Push and pop (R36): where each raises, what each writes, and that sixteen calls on an empty stack succeed and the
seventeenth raises `StackOverflow`. -/
def Obligations.SixteenCallsThenOverflow : Prop :=
  (∀ (s : State) (a : Word), s.sp = 16 → s.push a = .error .stackOverflow) ∧
  (∀ (s : State) (a : Word), s.sp < 16 → ∃ t, s.push a = .ok t ∧ t.sp = s.sp + 1 ∧
    t.stack[s.sp]? = some a ∧ (∀ j, j < s.sp → t.stack[j]? = s.stack[j]?) ∧ { t with stack := s.stack } = s) ∧
  (∀ s : State, s.sp = 0 → s.pop = .error .stackUnderflow) ∧
  (∀ s : State, 0 < s.sp → ∃ a t, s.pop = .ok (a, t) ∧ t.sp = s.sp - 1 ∧ s.stack[t.sp]? = some a ∧
    (∀ j, j < t.sp → t.stack[j]? = s.stack[j]?) ∧ { t with stack := s.stack } = s) ∧
  (∀ (targets : List Addr) (s : State), s.sp = 0 → targets.length = 16 →
    ∃ t, execAll (targets.map .call) s = .next t ∧ t.sp = 16 ∧
      ∀ nnn, exec (.call nnn) t = .fault .stackOverflow)

/-- BNNN: PC = NNN + V0, always V0, not reduced modulo 4096 (a decision of the spec, D28; log 19). -/
def Obligations.IndexedJumpAddsV0 : Prop :=
  ∀ (nnn : Addr) (s : State), ∃ t, exec (.jpV0 nnn) s = .next t ∧
    t.pc.toNat = nnn.toNat + (s.getV 0).toNat ∧ { t with pc := s.pc } = s

/-! ### Skips -/

/-- 3XNN and 4XNN (R110, R111): the encodings; PC + 2 more when the condition holds, nothing else ever; of the two with
the same operands exactly one skips. -/
def Obligations.ImmediateSkips : Prop :=
  (∀ w : Word, w &&& 0xF000 = 0x3000 → decodeWord w = .ok (.seImm (fieldX w) (fieldNN w))) ∧
  (∀ w : Word, w &&& 0xF000 = 0x4000 → decodeWord w = .ok (.sneImm (fieldX w) (fieldNN w))) ∧
  (∀ (x : Reg) (nn : Byte) (s : State),
    exec (.seImm x nn) s = .next { s with pc := if s.getV x = nn then s.pc + 2 else s.pc } ∧
    exec (.sneImm x nn) s = .next { s with pc := if s.getV x = nn then s.pc else s.pc + 2 }) ∧
  (∀ (x : Reg) (nn : Byte) (s : State), s.Fetches (encode (.seImm x nn)) →
    step s = .next { s with pc := if s.getV x = nn then s.pc + 4 else s.pc + 2 }) ∧
  (∀ (x : Reg) (nn : Byte) (s : State), s.Fetches (encode (.sneImm x nn)) →
    step s = .next { s with pc := if s.getV x = nn then s.pc + 2 else s.pc + 4 })

/-- 5XY0 and 9XY0 (R112, R113): the encodings, with bits 3:0 zero or else unknown; PC + 2 more when the condition holds,
nothing else ever; with X = Y the first always skips and the second never does. -/
def Obligations.RegisterSkips : Prop :=
  (∀ w : Word, w &&& 0xF00F = 0x5000 → decodeWord w = .ok (.seReg (fieldX w) (fieldY w))) ∧
  (∀ w : Word, w &&& 0xF00F = 0x9000 → decodeWord w = .ok (.sneReg (fieldX w) (fieldY w))) ∧
  (∀ w : Word, (w &&& 0xF000 = 0x5000 ∨ w &&& 0xF000 = 0x9000) → w &&& 0x000F ≠ 0 →
    decodeWord w = .error (.unknownOpcode w)) ∧
  (∀ (x y : Reg) (s : State),
    exec (.seReg x y) s = .next { s with pc := if s.getV x = s.getV y then s.pc + 2 else s.pc } ∧
    exec (.sneReg x y) s = .next { s with pc := if s.getV x = s.getV y then s.pc else s.pc + 2 }) ∧
  (∀ (x : Reg) (s : State), exec (.seReg x x) s = .next { s with pc := s.pc + 2 } ∧
    exec (.sneReg x x) s = .next s)

/-! ### Register data operations -/

/-- 6XNN and 7XNN (R121, R122): the encodings; VX = NN, and VX = VX + NN modulo 256 with no carry recorded anywhere. -/
def Obligations.ImmediateLoadAndAdd : Prop :=
  (∀ w : Word, w &&& 0xF000 = 0x6000 → decodeWord w = .ok (.ldImm (fieldX w) (fieldNN w))) ∧
  (∀ w : Word, w &&& 0xF000 = 0x7000 → decodeWord w = .ok (.addImm (fieldX w) (fieldNN w))) ∧
  (∀ (x : Reg) (nn : Byte) (s : State), ∃ t, exec (.ldImm x nn) s = .next t ∧
    t.getV x = nn ∧ OnlyRegisters [x] s t) ∧
  (∀ (x : Reg) (nn : Byte) (s : State), ∃ t, exec (.addImm x nn) s = .next t ∧
    (t.getV x).toNat = ((s.getV x).toNat + nn.toNat) % 256 ∧ OnlyRegisters [x] s t)

/-- 8XY0 (R123): the encoding; VX = VY and nothing else. -/
def Obligations.RegisterCopy : Prop :=
  (∀ w : Word, w &&& 0xF00F = 0x8000 → decodeWord w = .ok (.ldReg (fieldX w) (fieldY w))) ∧
  (∀ (x y : Reg) (s : State), ∃ t, exec (.ldReg x y) s = .next t ∧
    t.getV x = s.getV y ∧ OnlyRegisters [x] s t)

/-- 8XY1, 8XY2, 8XY3, bit by bit; VF is left alone unless X = F (a decision of the spec, D9; log 17). -/
def Obligations.LogicOperationsLeaveFlag : Prop :=
  ∀ (x y : Reg) (s : State),
    (∃ t, exec (.or x y) s = .next t ∧ OnlyRegisters [x] s t ∧
      ∀ k, (t.getV x).getLsbD k = ((s.getV x).getLsbD k || (s.getV y).getLsbD k)) ∧
    (∃ t, exec (.and x y) s = .next t ∧ OnlyRegisters [x] s t ∧
      ∀ k, (t.getV x).getLsbD k = ((s.getV x).getLsbD k && (s.getV y).getLsbD k)) ∧
    (∃ t, exec (.xor x y) s = .next t ∧ OnlyRegisters [x] s t ∧
      ∀ k, (t.getV x).getLsbD k = Bool.xor ((s.getV x).getLsbD k) ((s.getV y).getLsbD k))

/-- 8XY4: VF is the carry, also when X = F; the sum modulo 256 goes to VX when X is not F. That the flag is written
last is a decision of the spec (D7; log 15). -/
def Obligations.AddWritesSumAndCarry : Prop :=
  ∀ (x y : Reg) (s : State), ∃ t, exec (.addReg x y) s = .next t ∧
    (t.getV VF).toNat = (if (s.getV x).toNat + (s.getV y).toNat > 255 then 1 else 0) ∧
    (x ≠ VF → (t.getV x).toNat = ((s.getV x).toNat + (s.getV y).toNat) % 256) ∧
    OnlyRegisters [x, VF] s t

/-- 8XY5 and 8XY7: the difference modulo 256, and VF = 1 exactly when the minuend is strictly greater, so 0 on equality.
The flag of 8XY7 and the order of the writes are decisions of the spec (D8, D7; log 16, log 15). -/
def Obligations.SubtractionsWriteDifferenceAndFlag : Prop :=
  ∀ (x y : Reg) (s : State),
    (∃ t, exec (.sub x y) s = .next t ∧
      (t.getV VF).toNat = (if (s.getV x).toNat > (s.getV y).toNat then 1 else 0) ∧
      (x ≠ VF → (t.getV x).toNat = (256 + (s.getV x).toNat - (s.getV y).toNat) % 256) ∧
      OnlyRegisters [x, VF] s t) ∧
    (∃ t, exec (.subn x y) s = .next t ∧
      (t.getV VF).toNat = (if (s.getV y).toNat > (s.getV x).toNat then 1 else 0) ∧
      (x ≠ VF → (t.getV x).toNat = (256 + (s.getV y).toNat - (s.getV x).toNat) % 256) ∧
      OnlyRegisters [x, VF] s t)

/-- 8XY6 and 8XYE: the source halved, or doubled modulo 256, and the bit shifted out in VF as 0 or 1. The source is VX or
VY as `SHIFT_SRC` says: the spec's parameter, at its value VX (D6, D7, D10; log 7, log 15, log 18). The last two
clauses hold for either value of the parameter. -/
def Obligations.ShiftsMoveOneBitIntoFlag : Prop :=
  (∀ (x y : Reg) (s : State),
    exec (.shr x y) s = .next (s.shiftRight .vx x y) ∧ exec (.shl x y) s = .next (s.shiftLeft .vx x y)) ∧
  (∀ (p : Config.ShiftSrc) (x y : Reg) (s : State), ∃ src : Byte,
    src = s.getV (if p = .vx then x else y) ∧
    ((s.shiftRight p x y).getV VF).toNat = src.toNat % 2 ∧
    (x ≠ VF → ((s.shiftRight p x y).getV x).toNat = src.toNat / 2) ∧
    OnlyRegisters [x, VF] s (s.shiftRight p x y)) ∧
  (∀ (p : Config.ShiftSrc) (x y : Reg) (s : State), ∃ src : Byte,
    src = s.getV (if p = .vx then x else y) ∧
    ((s.shiftLeft p x y).getV VF).toNat = src.toNat / 128 ∧
    (x ≠ VF → ((s.shiftLeft p x y).getV x).toNat = src.toNat * 2 % 256) ∧
    OnlyRegisters [x, VF] s (s.shiftLeft p x y))

/-- CXNN: VX = r AND NN for the drawn byte r, so no bit outside NN is set, NN = 0 gives 0 and NN = 0xFF gives the draw
itself. The draw is a free value of the model, and only the model's own draw counter changes with it (log 3); the last
clause holds for every byte r. -/
def Obligations.RandomIsMasked : Prop :=
  (∀ w : Word, w &&& 0xF000 = 0xC000 → decodeWord w = .ok (.rnd (fieldX w) (fieldNN w))) ∧
  (∀ (x : Reg) (nn : Byte) (s : State), exec (.rnd x nn) s =
    .next (State.writeMasked { s with draws := s.draws + 1 } x nn (Config.randomByte s.draws))) ∧
  (∀ (x : Reg) (nn r : Byte) (s : State),
    (∀ k, ((s.writeMasked x nn r).getV x).getLsbD k = (r.getLsbD k && nn.getLsbD k)) ∧
    (s.writeMasked x nn r).getV x &&& ~~~nn = 0 ∧
    (nn = 0 → (s.writeMasked x nn r).getV x = 0) ∧ (nn = 0xFF → (s.writeMasked x nn r).getV x = r) ∧
    OnlyRegisters [x] s (s.writeMasked x nn r))

/-! ### Index register -/

/-- ANNN (R140): the encoding; I = NNN and nothing else. -/
def Obligations.LoadIndexSetsI : Prop :=
  (∀ w : Word, w &&& 0xF000 = 0xA000 → decodeWord w = .ok (.ldI (fieldNNN w))) ∧
  (∀ (nnn : Addr) (s : State), ∃ t, exec (.ldI nnn) s = .next t ∧ t.i.toNat = nnn.toNat ∧ { t with i := s.i } = s)

/-- FX1E and FX29: I + VX modulo 65536, and 5 * VX with no mask; no flag, no error, nothing else. The wrap and the missing
mask are decisions of the spec (D19, D11; log 22, log 13). -/
def Obligations.IndexArithmetic : Prop :=
  ∀ (x : Reg) (s : State),
    (∃ t, exec (.addI x) s = .next t ∧ t.i.toNat = (s.i.toNat + (s.getV x).toNat) % 65536 ∧ { t with i := s.i } = s) ∧
    (∃ t, exec (.ldF x) s = .next t ∧ t.i.toNat = 5 * (s.getV x).toNat ∧ { t with i := s.i } = s)

/-! ### Display -/

/-- 00E0 (R150): the encoding; every pixel unlit and nothing else. -/
def Obligations.ClearUnlightsEveryPixel : Prop :=
  decodeWord 0x00E0 = .ok .cls ∧
  (∀ s : State, ∃ t, exec .cls s = .next t ∧
    (∀ px py, px < Config.displayW → py < Config.displayH → t.pixel px py = false) ∧ { t with fb := s.fb } = s)

/-- DXYN: when the N sprite bytes are in memory, or N = 0, every display pixel is its old value exclusive-or the sprite
bit that lands on it, wrapped one pixel at a time; VF is 1 exactly when some pixel went from lit to unlit; nothing else
changes. Otherwise `OutOfBoundsAccess`. The display size and the check before the draw are the spec's own (D14, D15, D34;
log 11, log 23). -/
def Obligations.DrawXorsSpriteAndReportsCollision : Prop :=
  ∀ (x y : Reg) (n : Fin 16) (s : State),
    ((n.val = 0 ∨ s.i.toNat + n.val ≤ Config.memSize) → ∃ t, exec (.drw x y n) s = .next t ∧
      (∀ px py, px < Config.displayW → py < Config.displayH →
        (t.pixel px py = true ↔ ¬ (s.pixel px py = true ↔ SpriteCovers s x y n px py))) ∧
      (t.getV VF = 0 ∨ t.getV VF = 1) ∧
      (t.getV VF = 1 ↔ ∃ px py, px < Config.displayW ∧ py < Config.displayH ∧
        s.pixel px py = true ∧ t.pixel px py = false) ∧
      SameRegistersBut [VF] s t ∧ SameMemory s t ∧ { t with v := s.v, fb := s.fb } = s) ∧
    (0 < n.val → Config.memSize ≤ s.i.toNat + n.val - 1 → exec (.drw x y n) s = .fault .outOfBoundsAccess)

/-- Drawing the same sprite at the same place twice restores the display; the second draw collides exactly when the sprite
covers a pixel that was unlit before the first, which on a clear display is whenever the sprite has a 1 bit (a consequence
of R152 that the spec marks as derived, made exact for any display: log 33). X and Y are not F, whose coordinate the
first draw overwrites with the flag. -/
def Obligations.DrawingTwiceRestoresDisplay : Prop :=
  ∀ (x y : Reg) (n : Fin 16) (s t u : State), x ≠ VF → y ≠ VF →
    exec (.drw x y n) s = .next t → exec (.drw x y n) t = .next u →
    u.fb = s.fb ∧
    (u.getV VF = 1 ↔ ∃ px py, px < Config.displayW ∧ py < Config.displayH ∧
      s.pixel px py = false ∧ SpriteCovers s x y n px py) ∧
    ((∀ px py, px < Config.displayW → py < Config.displayH → s.pixel px py = false) →
      (u.getV VF = 1 ↔ ∃ r c, r < n.val ∧ c < 8 ∧ (s.readByte (s.i.toNat + r)).getLsbD (7 - c) = true))

/-! ### Keys -/

/-- EX9E and EXA1: the level of key VX decides the skip; a VX above 15 names no key, which is not down (a decision of the
spec, D12; log 14). Nothing but PC changes. -/
def Obligations.KeySkipsFollowLevels : Prop :=
  ∀ (x : Reg) (s : State),
    (∀ k : Key, (s.getV x).toNat = k.val →
      exec (.skp x) s = .next { s with pc := if s.keys.getLsbD k.val then s.pc + 2 else s.pc } ∧
      exec (.sknp x) s = .next { s with pc := if s.keys.getLsbD k.val then s.pc else s.pc + 2 }) ∧
    (15 < (s.getV x).toNat → exec (.skp x) s = .next s ∧ exec (.sknp x) s = .next { s with pc := s.pc + 2 })

/-- FX0A (R162): the encoding; the step advances PC and enters the wait, and writes nothing else, VX included; a key press
before it is dropped; while waiting, `Step()` does nothing, the timers run, and levels do not end the wait; the first key
press writes its index to VX and ends the wait, a second one is dropped; `Reset` and `Load` also leave it. -/
def Obligations.KeyWaitEndsWithNextPress : Prop :=
  (∀ w : Word, w &&& 0xF0FF = 0xF00A → decodeWord w = .ok (.ldVxK (fieldX w))) ∧
  (∀ (x : Reg) (s : State), exec (.ldVxK x) s = .next { s with mode := .awaitingKey x }) ∧
  (∀ (x : Reg) (s : State), s.Fetches (encode (.ldVxK x)) →
    (∀ k, performed (.keyPress k) s = s) ∧ step s = .next { s with pc := s.pc + 2, mode := .awaitingKey x }) ∧
  (∀ (x : Reg) (s : State), s.mode = .awaitingKey x →
    performed .step s = s ∧ reported .step s = none ∧
    (performed .tick s).mode = .awaitingKey x ∧ (performed .tick s).dt.toNat = s.dt.toNat - 1 ∧
    (performed .tick s).st.toNat = s.st.toNat - 1 ∧
    (∀ levels, (performed (.setKeys levels) s).mode = .awaitingKey x) ∧
    (performed .reset s).mode = .halted ∧
    (∀ bytes y, (performed (.load bytes) s).mode ≠ .awaitingKey y) ∧
    (∀ k : Key, ∃ t, performed (.keyPress k) s = t ∧ (t.getV x).toNat = k.val ∧
      SameRegistersBut [x] s t ∧ t.mode = .ready ∧ { t with v := s.v, mode := s.mode } = s ∧
      ∀ k2, performed (.keyPress k2) t = t))

/-- A key press when nobody waits is dropped and leaves no trace; it never reports an error (a decision of the spec, D23;
log 24). -/
def Obligations.KeyPressWithoutWaitIsDropped : Prop :=
  ∀ (k : Key) (s : State), reported (.keyPress k) s = none ∧
    ((∀ x, s.mode ≠ .awaitingKey x) → performed (.keyPress k) s = s)

/-! ### Timers -/

/-- FX07 reads the delay timer, FX15 writes it, FX18 writes the sound timer and so the tone; nothing else changes. Which
opcode does which is a decision of the spec (D36; log 25). -/
def Obligations.TimerCopies : Prop :=
  ∀ (x : Reg) (s : State),
    (∃ t, exec (.ldVxDt x) s = .next t ∧ t.getV x = s.dt ∧ OnlyRegisters [x] s t) ∧
    exec (.ldDtVx x) s = .next { s with dt := s.getV x } ∧
    (∃ t, exec (.ldStVx x) s = .next t ∧ t.st = s.getV x ∧ (t.toneOn = true ↔ s.getV x ≠ 0) ∧ { t with st := s.st } = s)

/-- `n` ticks, in any mode, take each timer down by `n`, floored at 0, and touch nothing else: a timer written with n
reaches 0 after exactly n ticks (R207 and R208, a decision, D22, and a derived rule of the spec; log 26). -/
def Obligations.TicksCountDown : Prop :=
  ∀ (n : Nat) (s : State), ∃ t, drive (List.replicate n .tick) s = t ∧
    t.dt.toNat = s.dt.toNat - n ∧ t.st.toNat = s.st.toNat - n ∧ { t with dt := s.dt, st := s.st } = s

/-- The sound timer (R29): 0 after reset; written by FX18 with VX and by `Tick`, one less when not 0, and by no other
instruction, key press or change of key levels; no instruction reads it, so an instruction run with another value leaves a
state that differs in it alone. -/
def Obligations.SoundTimerIsWriteOnly : Prop :=
  State.reset.st = 0 ∧ State.reset.toneOn = false ∧
  (∀ s : State, s.toneOn = true ↔ s.st ≠ 0) ∧
  (∀ s : State, (performed .reset s).st = 0 ∧ ∀ bytes, (performed (.load bytes) s).st = 0) ∧
  (∀ s : State, (performed .tick s).st.toNat = s.st.toNat - 1) ∧
  (∀ (k : Key) (levels : BitVec Config.numKeys) (s : State),
    (performed (.keyPress k) s).st = s.st ∧ (performed (.setKeys levels) s).st = s.st) ∧
  (∀ (x : Reg) (s : State) (b : Byte), exec (.ldStVx x) { s with st := b } = .next { s with st := s.getV x }) ∧
  (∀ (i : Instr) (s : State) (b : Byte), (∀ x, i ≠ .ldStVx x) →
    exec i { s with st := b } = Result.onNext (fun t => { t with st := b }) (exec i s))

/-- Only EX9E and EXA1 read the key levels: any other instruction does the same whatever keys are held. -/
def Obligations.OnlyKeySkipsReadLevels : Prop :=
  ∀ (i : Instr) (s : State) (levels : BitVec Config.numKeys), (∀ x, i ≠ .skp x ∧ i ≠ .sknp x) →
    exec i { s with keys := levels } = Result.onNext (fun t => { t with keys := levels }) (exec i s)

/-! ### Memory operations -/

/-- FX33: with I, I + 1 and I + 2 in memory, the three decimal digits are stored there and nothing else changes; otherwise
`OutOfBoundsAccess`. The check of the whole range is a decision of the spec (D29; log 23). The premise on memory is the
invariant `State.Inv.memory`, which `StepKeepsInvariant` states. -/
def Obligations.DecimalDigitsStored : Prop :=
  ∀ (x : Reg) (s : State), s.mem.wf →
    (s.i.toNat + 2 < Config.memSize → ∃ t, exec (.ldB x) s = .next t ∧
      (t.readByte s.i.toNat).toNat = (s.getV x).toNat / 100 ∧
      (t.readByte (s.i.toNat + 1)).toNat = (s.getV x).toNat / 10 % 10 ∧
      (t.readByte (s.i.toNat + 2)).toNat = (s.getV x).toNat % 10 ∧
      SameMemoryOutside s.base 3 s t ∧ { t with mem := s.mem } = s) ∧
    (Config.memSize ≤ s.i.toNat + 2 → exec (.ldB x) s = .fault .outOfBoundsAccess)

/-- FX55: with I .. I + X in memory, V0 .. VX are stored there in order and nothing else changes, I included; otherwise
`OutOfBoundsAccess` (D29; log 23). -/
def Obligations.RegistersStored : Prop :=
  ∀ (x : Reg) (s : State), s.mem.wf →
    (s.i.toNat + x.val < Config.memSize → ∃ t, exec (.stRegs x) s = .next t ∧
      (∀ r : Reg, r.val ≤ x.val → t.readByte (s.i.toNat + r.val) = s.getV r) ∧
      SameMemoryOutside s.base (x.val + 1) s t ∧ { t with mem := s.mem } = s) ∧
    (Config.memSize ≤ s.i.toNat + x.val → exec (.stRegs x) s = .fault .outOfBoundsAccess)

/-- FX65: with I .. I + X in memory, V0 .. VX are loaded from there and nothing else changes, registers above X and I
included; otherwise `OutOfBoundsAccess` (D29; log 23). -/
def Obligations.RegistersLoaded : Prop :=
  ∀ (x : Reg) (s : State),
    (s.i.toNat + x.val < Config.memSize → ∃ t, exec (.ldRegs x) s = .next t ∧
      (∀ r : Reg, t.getV r = if r.val ≤ x.val then s.readByte (s.i.toNat + r.val) else s.getV r) ∧
      SameMemory s t ∧ { t with v := s.v } = s) ∧
    (Config.memSize ≤ s.i.toNat + x.val → exec (.ldRegs x) s = .fault .outOfBoundsAccess)

/-- FX55 followed by FX65 with the same X and I restores the registers that were dumped, whatever happened to the
registers in between (the property of DOC0 §8 quoted in R182; S6). -/
def Obligations.DumpThenLoadRestores : Prop :=
  ∀ (x : Reg) (s t u : State), s.mem.wf → exec (.stRegs x) s = .next t → u.mem = t.mem → u.i = t.i →
    ∃ z, exec (.ldRegs x) u = .next z ∧ (∀ r : Reg, r.val ≤ x.val → z.getV r = s.getV r) ∧
      (∀ r : Reg, x.val < r.val → z.getV r = u.getV r) ∧ { z with v := u.v } = u

/-- A byte stored by FX33 or FX55 is what the very next fetch reads, wherever PC points: each of the two bytes of the opcode
is the stored one where it was stored to, and the old one where it was not, so an opcode of which one byte alone was
stored is covered too (R62, which the spec marks as derived). The fetch is of any state with the memory the store left,
the state right after the store among them. -/
def Obligations.StoreIsSeenByNextFetch : Prop :=
  (∀ (x : Reg) (s t u : State), s.mem.wf → exec (.ldB x) s = .next t → u.mem = t.mem →
    u.pc.toNat + 1 < Config.memSize → ∃ w, fetch u = .ok w ∧
      w.toNat = byteAfterDigits x s u.pc.toNat * 256 + byteAfterDigits x s (u.pc.toNat + 1)) ∧
  (∀ (x : Reg) (s t u : State), s.mem.wf → exec (.stRegs x) s = .next t → u.mem = t.mem →
    u.pc.toNat + 1 < Config.memSize → ∃ w, fetch u = .ok w ∧
      w.toNat = byteAfterDump x s u.pc.toNat * 256 + byteAfterDump x s (u.pc.toNat + 1)) ∧
  (∀ (x : Reg) (s t u : State) (r q : Reg), s.mem.wf → exec (.stRegs x) s = .next t →
    q.val = r.val + 1 → q.val ≤ x.val → u.mem = t.mem → u.pc.toNat = s.i.toNat + r.val →
    fetch u = .ok (opcodeOf (s.getV r) (s.getV q)))

/-! ### The whole machine: frames and ownership -/

/-- The frame of every instruction: a completed body changes no general register but its destinations and no byte of memory
but those it stores from `s.base`; and each other item of the state, PC among them, is changed only by the instructions the
spec gives it to: PC, which holds the address of the next instruction when the body begins (R92), by return, jumps, call and
skips alone. -/
def Obligations.EveryInstructionKeepsItsFrame : Prop :=
  ∀ (i : Instr) (s t : State), exec i s = .next t →
    SameRegistersBut (destinations i) s t ∧
    SameMemoryOutside s.base (storedBytes i) s t ∧
    ((∀ x y nn nnn, i ≠ .ret ∧ i ≠ .jp nnn ∧ i ≠ .call nnn ∧ i ≠ .jpV0 nnn ∧ i ≠ .seImm x nn ∧ i ≠ .sneImm x nn ∧
      i ≠ .seReg x y ∧ i ≠ .sneReg x y ∧ i ≠ .skp x ∧ i ≠ .sknp x) → t.pc = s.pc) ∧
    ((∀ x nnn, i ≠ .ldI nnn ∧ i ≠ .addI x ∧ i ≠ .ldF x) → t.i = s.i) ∧
    ((∀ x, i ≠ .ldDtVx x) → t.dt = s.dt) ∧
    ((∀ x, i ≠ .ldStVx x) → t.st = s.st) ∧
    ((∀ x, i ≠ .ldVxK x) → t.mode = s.mode) ∧
    ((∀ nnn, i ≠ .call nnn ∧ i ≠ .ret) → t.stack = s.stack) ∧
    ((∀ x y n, i ≠ .cls ∧ i ≠ .drw x y n) → t.fb = s.fb) ∧
    ((∀ x nn, i ≠ .rnd x nn) → t.draws = s.draws) ∧
    t.keys = s.keys ∧ t.schedule = s.schedule

/-- The run state: every transition, for each operation, and no other (R30). That a failed `Load` leaves `Halted`, so that
nothing but `Reset` and the reset of a failed `Load` enters it, is a decision of the spec (R239, D18; log 27). -/
def Obligations.ModeTransitions : Prop :=
  State.reset.mode = .halted ∧
  ∀ s : State,
    (performed .reset s).mode = .halted ∧
    (∀ bytes, (performed (.load bytes) s).mode =
      if bytes.length ≤ Config.memSize - Config.progBase then .ready else .halted) ∧
    (s.mode ≠ .ready → performed .step s = s ∧ reported .step s = none) ∧
    (s.mode = .ready → (performed .step s).mode = .ready ∨
      ∃ w x, fetch s = .ok w ∧ decodeWord w = .ok (.ldVxK x) ∧ (performed .step s).mode = .awaitingKey x) ∧
    (∀ w x, s.mode = .ready → fetch s = .ok w → decodeWord w = .ok (.ldVxK x) →
      (performed .step s).mode = .awaitingKey x) ∧
    (∀ k x, s.mode = .awaitingKey x → (performed (.keyPress k) s).mode = .ready) ∧
    (∀ k, (∀ x, s.mode ≠ .awaitingKey x) → (performed (.keyPress k) s).mode = s.mode) ∧
    (performed .tick s).mode = s.mode ∧
    (∀ levels, (performed (.setKeys levels) s).mode = s.mode)

/-! ### Errors -/

/-- When a step raises, and what (R193, R194, R195): every raiser and its exact condition, and no other. -/
def Obligations.StepRaisesExactlyAsTabulated : Prop :=
  (∀ s : State, s.schedule = [] → s.sp ≤ 16 →
    (step s = .fault .stackOverflow ↔ ∃ w nnn, s.Fetches w ∧ decodeWord w = .ok (.call nnn) ∧ s.sp = 16) ∧
    (step s = .fault .stackUnderflow ↔ ∃ w, s.Fetches w ∧ decodeWord w = .ok .ret ∧ s.sp = 0) ∧
    (step s = .fault .outOfBoundsAccess ↔ s.mode = .ready ∧ (Config.memSize ≤ s.pc.toNat + 1 ∨
      ∃ w i, s.Fetches w ∧ decodeWord w = .ok i ∧
        ((∃ x y n, i = .drw x y n ∧ 0 < n.val ∧ Config.memSize ≤ s.i.toNat + n.val - 1) ∨
         (∃ x, i = .ldB x ∧ Config.memSize ≤ s.i.toNat + 2) ∨
         (∃ x, i = .stRegs x ∧ Config.memSize ≤ s.i.toNat + x.val) ∨
         (∃ x, i = .ldRegs x ∧ Config.memSize ≤ s.i.toNat + x.val))))) ∧
  (∀ (e : Event) (s : State) (f : Fault), e ≠ .step → reported e s = some f → f = .programTooLarge)

/-- A raising `Step()` leaves the whole state as it was, and whatever steps, ticks, key presses and changes of the key levels
follow, the next step raises the same error again, with the machine still at the same instruction; `Reset` and a `Load` that
fits leave it.
That an error changes nothing, PC included, is a decision of the spec (D4; log 6). -/
def Obligations.RaisingStepIsStuckUntilReset : Prop :=
  ∀ (s : State) (f : Fault), reported .step s = some f →
    performed .step s = s ∧
    (∀ events : List Event, (∀ e ∈ events, e.Ordinary) →
      reported .step (drive events s) = some f ∧ (drive events s).pc = s.pc) ∧
    (performed .reset s).mode = .halted ∧
    (∀ bytes, bytes.length ≤ 3584 → (performed (.load bytes) s).mode = .ready)

/-- `ProgramTooLarge` (R192): raised by `Load` exactly when the image exceeds the 3584 bytes from 0x200 to the end of memory,
and by no instruction. -/
def Obligations.LoadRejectsLargeImage : Prop :=
  (∀ (bytes : List Byte) (s : State), reported (.load bytes) s = some .programTooLarge ↔
    Config.memSize - Config.progBase < bytes.length) ∧
  Config.memSize - Config.progBase = 3584 ∧
  (∀ (i : Instr) (s : State), exec i s ≠ .fault .programTooLarge)

/-! ### Reset and load -/

/-- `Reset()` (R230): from any state, every item it writes, and the display and the keys untouched; no error. That memory
beyond the font is cleared, and that the display is not touched, are the spec's own resolution and decision
(90_conflicts.md C2, D16; log 27), and the bytes of the font are its default (D13; log 9). At an address outside memory,
which no access of the machine reaches, the model's read gives 0 (log 10). -/
def Obligations.ResetWritesEveryItem : Prop :=
  ∀ s : State, ∃ t, performed .reset s = t ∧ reported .reset s = none ∧
    (∀ r, t.getV r = 0) ∧ t.sp = 0 ∧ t.pc = 0x200 ∧ t.i = 0 ∧ t.dt = 0 ∧ t.st = 0 ∧ t.toneOn = false ∧
    t.mode = .halted ∧ (∀ a, a < 80 → Config.font[a]? = some (t.readByte a)) ∧
    (∀ a, 80 ≤ a → t.readByte a = 0) ∧ t.fb = s.fb ∧ t.keys = s.keys

/-- `Reset()` twice is `Reset()` once (R234). -/
def Obligations.ResetIsIdempotent : Prop :=
  ∀ s : State, performed .reset (performed .reset s) = performed .reset s

/-- The state a successful `Load` leaves (the launch state): the reset state with the image from 0x200, `Ready`; a `Load`
that fails leaves the reset state, nothing copied. The failed load's state, the cleared memory and the untouched display are
the spec's decisions (D18, 90_conflicts.md C2, D16; log 27), and the bytes of the font are its default (D13; log 9). At an
address outside memory, which no access of the machine reaches, the model's read gives 0 (log 10). -/
def Obligations.LoadLeavesLaunchState : Prop :=
  (∀ (bytes : List Byte) (s : State), 3584 < bytes.length → performed (.load bytes) s = performed .reset s) ∧
  ∀ (bytes : List Byte) (s : State), bytes.length ≤ 3584 → ∃ t, performed (.load bytes) s = t ∧
    reported (.load bytes) s = none ∧
    (∀ k, k < bytes.length → bytes[k]? = some (t.readByte (0x200 + k))) ∧
    (∀ a, a < 80 → Config.font[a]? = some (t.readByte a)) ∧
    (∀ a, 80 ≤ a → a < 0x200 → t.readByte a = 0) ∧
    (∀ a, 0x200 + bytes.length ≤ a → t.readByte a = 0) ∧
    t.mode = .ready ∧ { t with mem := (performed .reset s).mem, mode := .halted } = performed .reset s

/-! ### The invariant -/

/-- The state right after reset meets the invariant. -/
def Obligations.ResetMeetsInvariant : Prop := State.reset.Inv

/-- Every step keeps the invariant, whatever event it performs: the canonical form of memory; at most 16 stack entries, each
from 2 to 4096; PC at most 0x10FE; a halted machine exactly as `Reset` left it. The invariant is the model's reading of the
spec (10_state.md sections 2, 5, 6; 60_exceptions.md section 7). -/
def Obligations.StepKeepsInvariant : Prop :=
  ∀ s t : State, s.Inv → step s = .next t → t.Inv

/-- For a driver that goes on after errors: every sequence of events, failed loads and raising steps among them, keeps the
invariant. -/
def Obligations.EveryDriverSequenceKeepsInvariant : Prop :=
  ∀ (events : List Event) (s : State), s.Inv → (drive events s).Inv
end

