-- ==== Sys2Proof/Laws/State.lean ====
section
/-! SUPPORT. The fields of the state after each update: one lemma per field per update, so that no later proof unfolds
a record update. -/

namespace Sys2Proof.Machine

-- Many small theorems: elaborated one after another, so that the compiler needs few threads.
set_option Elab.async false

/-! ### The parameters as numbers -/

@[simp] theorem memSize_eq : Config.memSize = 4096 := rfl
@[simp] theorem progBase_eq : Config.progBase = 0x200 := rfl
@[simp] theorem stackDepth_eq : Config.stackDepth = 16 := rfl
@[simp] theorem numRegs_eq : Config.numRegs = 16 := rfl
@[simp] theorem numKeys_eq : Config.numKeys = 16 := rfl
@[simp] theorem regW_eq : Config.regW = 8 := rfl
@[simp] theorem pcW_eq : Config.pcW = 16 := rfl
@[simp] theorem iW_eq : Config.iW = 16 := rfl
@[simp] theorem timerW_eq : Config.timerW = 8 := rfl
@[simp] theorem stackW_eq : Config.stackW = 16 := rfl

/-! ### The ranges of the indices and of the fields as numerals, for arithmetic -/

theorem reg_lt (r : Reg) : r.val < 16 := r.isLt
theorem key_lt (k : Key) : k.val < 16 := k.isLt
theorem State.getV_lt (s : State) (r : Reg) : (s.getV r).toNat < 256 := (s.getV r).isLt
theorem State.pc_lt (s : State) : s.pc.toNat < 65536 := s.pc.isLt
theorem State.i_lt (s : State) : s.i.toNat < 65536 := s.i.isLt
theorem State.dt_lt (s : State) : s.dt.toNat < 256 := s.dt.isLt
theorem State.st_lt (s : State) : s.st.toNat < 256 := s.st.isLt

section setV
variable (s : State) (r : Reg) (b : Byte)

/-- What a register reads after a register write. -/
theorem getV_setV (q : Reg) : (s.setV r b).getV q = if q = r then b else s.getV q := by
  by_cases h : q = r
  · subst h; simp [State.setV, State.getV]
  · have : r.val ≠ q.val := fun e => h (Fin.ext e.symm)
    simp [State.setV, State.getV, h, this]

@[simp] theorem getV_setV_same : (s.setV r b).getV r = b := by simp [getV_setV]
@[simp] theorem getV_setV_other {q : Reg} (h : q ≠ r) : (s.setV r b).getV q = s.getV q := by
  simp [getV_setV, h]
@[simp] theorem setV_pc : (s.setV r b).pc = s.pc := rfl
@[simp] theorem setV_i : (s.setV r b).i = s.i := rfl
@[simp] theorem setV_dt : (s.setV r b).dt = s.dt := rfl
@[simp] theorem setV_st : (s.setV r b).st = s.st := rfl
@[simp] theorem setV_mode : (s.setV r b).mode = s.mode := rfl
@[simp] theorem setV_stack : (s.setV r b).stack = s.stack := rfl
@[simp] theorem setV_mem : (s.setV r b).mem = s.mem := rfl
@[simp] theorem setV_fb : (s.setV r b).fb = s.fb := rfl
@[simp] theorem setV_keys : (s.setV r b).keys = s.keys := rfl
@[simp] theorem setV_draws : (s.setV r b).draws = s.draws := rfl
@[simp] theorem setV_schedule : (s.setV r b).schedule = s.schedule := rfl
@[simp] theorem setV_readByte (a : Nat) : (s.setV r b).readByte a = s.readByte a := rfl
@[simp] theorem setV_base : (s.setV r b).base = s.base := rfl
@[simp] theorem setV_sp : (s.setV r b).sp = s.sp := rfl
@[simp] theorem setV_keyDown (k : Byte) : (s.setV r b).keyDown k = s.keyDown k := rfl
end setV

/-- Two states with the same registers, read one by one, have the same register file. -/
theorem v_ext {s t : State} (h : ∀ r, t.getV r = s.getV r) : t.v = s.v := by
  apply Vector.ext
  intro k hk
  exact h ⟨k, hk⟩

section jump
variable (s : State) (a : Word)
@[simp] theorem jump_pc : (s.jump a).pc = a := rfl
@[simp] theorem jump_v : (s.jump a).v = s.v := rfl
@[simp] theorem jump_getV (r : Reg) : (s.jump a).getV r = s.getV r := rfl
@[simp] theorem jump_i : (s.jump a).i = s.i := rfl
@[simp] theorem jump_dt : (s.jump a).dt = s.dt := rfl
@[simp] theorem jump_st : (s.jump a).st = s.st := rfl
@[simp] theorem jump_mode : (s.jump a).mode = s.mode := rfl
@[simp] theorem jump_stack : (s.jump a).stack = s.stack := rfl
@[simp] theorem jump_mem : (s.jump a).mem = s.mem := rfl
@[simp] theorem jump_fb : (s.jump a).fb = s.fb := rfl
@[simp] theorem jump_keys : (s.jump a).keys = s.keys := rfl
@[simp] theorem jump_draws : (s.jump a).draws = s.draws := rfl
@[simp] theorem jump_schedule : (s.jump a).schedule = s.schedule := rfl
end jump

section setI
variable (s : State) (w : Word)
@[simp] theorem setI_i : (s.setI w).i = w := rfl
@[simp] theorem setI_v : (s.setI w).v = s.v := rfl
@[simp] theorem setI_getV (r : Reg) : (s.setI w).getV r = s.getV r := rfl
@[simp] theorem setI_pc : (s.setI w).pc = s.pc := rfl
@[simp] theorem setI_dt : (s.setI w).dt = s.dt := rfl
@[simp] theorem setI_st : (s.setI w).st = s.st := rfl
@[simp] theorem setI_mode : (s.setI w).mode = s.mode := rfl
@[simp] theorem setI_stack : (s.setI w).stack = s.stack := rfl
@[simp] theorem setI_mem : (s.setI w).mem = s.mem := rfl
@[simp] theorem setI_fb : (s.setI w).fb = s.fb := rfl
@[simp] theorem setI_keys : (s.setI w).keys = s.keys := rfl
@[simp] theorem setI_draws : (s.setI w).draws = s.draws := rfl
@[simp] theorem setI_schedule : (s.setI w).schedule = s.schedule := rfl
end setI

section advance
variable (s : State)
@[simp] theorem advance_pc : s.advance.pc = s.pc + 2 := rfl
@[simp] theorem advance_v : s.advance.v = s.v := rfl
@[simp] theorem advance_getV (r : Reg) : s.advance.getV r = s.getV r := rfl
@[simp] theorem advance_i : s.advance.i = s.i := rfl
@[simp] theorem advance_dt : s.advance.dt = s.dt := rfl
@[simp] theorem advance_st : s.advance.st = s.st := rfl
@[simp] theorem advance_mode : s.advance.mode = s.mode := rfl
@[simp] theorem advance_stack : s.advance.stack = s.stack := rfl
@[simp] theorem advance_mem : s.advance.mem = s.mem := rfl
@[simp] theorem advance_fb : s.advance.fb = s.fb := rfl
@[simp] theorem advance_keys : s.advance.keys = s.keys := rfl
@[simp] theorem advance_draws : s.advance.draws = s.draws := rfl
@[simp] theorem advance_schedule : s.advance.schedule = s.schedule := rfl
@[simp] theorem advance_readByte (a : Nat) : s.advance.readByte a = s.readByte a := rfl
end advance

section skipIf
variable (s : State) (c : Bool)
@[simp] theorem skipIf_pc : (s.skipIf c).pc = if c then s.pc + 2 else s.pc := by
  cases c <;> rfl
@[simp] theorem skipIf_v : (s.skipIf c).v = s.v := by cases c <;> rfl
@[simp] theorem skipIf_i : (s.skipIf c).i = s.i := by cases c <;> rfl
@[simp] theorem skipIf_dt : (s.skipIf c).dt = s.dt := by cases c <;> rfl
@[simp] theorem skipIf_st : (s.skipIf c).st = s.st := by cases c <;> rfl
@[simp] theorem skipIf_mode : (s.skipIf c).mode = s.mode := by cases c <;> rfl
@[simp] theorem skipIf_stack : (s.skipIf c).stack = s.stack := by cases c <;> rfl
@[simp] theorem skipIf_mem : (s.skipIf c).mem = s.mem := by cases c <;> rfl
@[simp] theorem skipIf_fb : (s.skipIf c).fb = s.fb := by cases c <;> rfl
@[simp] theorem skipIf_keys : (s.skipIf c).keys = s.keys := by cases c <;> rfl
@[simp] theorem skipIf_draws : (s.skipIf c).draws = s.draws := by cases c <;> rfl
@[simp] theorem skipIf_schedule : (s.skipIf c).schedule = s.schedule := by cases c <;> rfl
end skipIf

section writeFlagged
variable (s : State) (x : Reg) (r f : Byte)

/-- What a register reads after a flag-writing instruction: the flag last (R26). -/
theorem getV_writeFlagged (q : Reg) :
    (s.writeFlagged x r f).getV q = if q = VF then f else if q = x then r else s.getV q := by
  simp [State.writeFlagged, getV_setV]

@[simp] theorem writeFlagged_pc : (s.writeFlagged x r f).pc = s.pc := rfl
@[simp] theorem writeFlagged_i : (s.writeFlagged x r f).i = s.i := rfl
@[simp] theorem writeFlagged_dt : (s.writeFlagged x r f).dt = s.dt := rfl
@[simp] theorem writeFlagged_st : (s.writeFlagged x r f).st = s.st := rfl
@[simp] theorem writeFlagged_mode : (s.writeFlagged x r f).mode = s.mode := rfl
@[simp] theorem writeFlagged_stack : (s.writeFlagged x r f).stack = s.stack := rfl
@[simp] theorem writeFlagged_mem : (s.writeFlagged x r f).mem = s.mem := rfl
@[simp] theorem writeFlagged_fb : (s.writeFlagged x r f).fb = s.fb := rfl
@[simp] theorem writeFlagged_keys : (s.writeFlagged x r f).keys = s.keys := rfl
@[simp] theorem writeFlagged_draws : (s.writeFlagged x r f).draws = s.draws := rfl
@[simp] theorem writeFlagged_schedule : (s.writeFlagged x r f).schedule = s.schedule := rfl
end writeFlagged

section writeByte
variable (s : State) (a : Nat) (b : Byte)
@[simp] theorem writeByte_mem : (s.writeByte a b).mem = s.mem.write a b := rfl
@[simp] theorem writeByte_v : (s.writeByte a b).v = s.v := rfl
@[simp] theorem writeByte_pc : (s.writeByte a b).pc = s.pc := rfl
@[simp] theorem writeByte_i : (s.writeByte a b).i = s.i := rfl
@[simp] theorem writeByte_dt : (s.writeByte a b).dt = s.dt := rfl
@[simp] theorem writeByte_st : (s.writeByte a b).st = s.st := rfl
@[simp] theorem writeByte_mode : (s.writeByte a b).mode = s.mode := rfl
@[simp] theorem writeByte_stack : (s.writeByte a b).stack = s.stack := rfl
@[simp] theorem writeByte_fb : (s.writeByte a b).fb = s.fb := rfl
@[simp] theorem writeByte_keys : (s.writeByte a b).keys = s.keys := rfl
@[simp] theorem writeByte_draws : (s.writeByte a b).draws = s.draws := rfl
@[simp] theorem writeByte_schedule : (s.writeByte a b).schedule = s.schedule := rfl
end writeByte

section storeAtI
variable (s : State) (bs : List Byte)
@[simp] theorem storeAtI_mem : (s.storeAtI bs).mem = s.mem.writeBytes s.base bs := rfl
@[simp] theorem storeAtI_v : (s.storeAtI bs).v = s.v := rfl
@[simp] theorem storeAtI_getV (r : Reg) : (s.storeAtI bs).getV r = s.getV r := rfl
@[simp] theorem storeAtI_pc : (s.storeAtI bs).pc = s.pc := rfl
@[simp] theorem storeAtI_i : (s.storeAtI bs).i = s.i := rfl
@[simp] theorem storeAtI_dt : (s.storeAtI bs).dt = s.dt := rfl
@[simp] theorem storeAtI_st : (s.storeAtI bs).st = s.st := rfl
@[simp] theorem storeAtI_mode : (s.storeAtI bs).mode = s.mode := rfl
@[simp] theorem storeAtI_stack : (s.storeAtI bs).stack = s.stack := rfl
@[simp] theorem storeAtI_fb : (s.storeAtI bs).fb = s.fb := rfl
@[simp] theorem storeAtI_keys : (s.storeAtI bs).keys = s.keys := rfl
@[simp] theorem storeAtI_draws : (s.storeAtI bs).draws = s.draws := rfl
@[simp] theorem storeAtI_schedule : (s.storeAtI bs).schedule = s.schedule := rfl
end storeAtI

section loadRegisters
variable (s : State) (base n : Nat)

/-- Everything but the register file is untouched by a register load. -/
theorem loadRegisters_rest : s.loadRegisters base n = { s with v := (s.loadRegisters base n).v } := by
  induction n with
  | zero => rfl
  | succ k ih =>
    rw [State.loadRegisters, ih]
    rfl

@[simp] theorem loadRegisters_pc : (s.loadRegisters base n).pc = s.pc := by rw [loadRegisters_rest]
@[simp] theorem loadRegisters_i : (s.loadRegisters base n).i = s.i := by rw [loadRegisters_rest]
@[simp] theorem loadRegisters_dt : (s.loadRegisters base n).dt = s.dt := by rw [loadRegisters_rest]
@[simp] theorem loadRegisters_st : (s.loadRegisters base n).st = s.st := by rw [loadRegisters_rest]
@[simp] theorem loadRegisters_mode : (s.loadRegisters base n).mode = s.mode := by rw [loadRegisters_rest]
@[simp] theorem loadRegisters_stack : (s.loadRegisters base n).stack = s.stack := by rw [loadRegisters_rest]
@[simp] theorem loadRegisters_mem : (s.loadRegisters base n).mem = s.mem := by rw [loadRegisters_rest]
@[simp] theorem loadRegisters_fb : (s.loadRegisters base n).fb = s.fb := by rw [loadRegisters_rest]
@[simp] theorem loadRegisters_keys : (s.loadRegisters base n).keys = s.keys := by rw [loadRegisters_rest]
@[simp] theorem loadRegisters_draws : (s.loadRegisters base n).draws = s.draws := by rw [loadRegisters_rest]
@[simp] theorem loadRegisters_schedule : (s.loadRegisters base n).schedule = s.schedule := by rw [loadRegisters_rest]

/-- What a register reads after a load of `n` registers (R182). -/
theorem getV_loadRegisters (hn : n ≤ 16) (q : Reg) :
    (s.loadRegisters base n).getV q = if q.val < n then s.readByte (base + q.val) else s.getV q := by
  induction n with
  | zero => rfl
  | succ k ih =>
    have hk : (Fin.ofNat 16 k).val = k := Nat.mod_eq_of_lt (by omega)
    rw [State.loadRegisters, getV_setV, ih (by omega)]
    by_cases h : q.val = k
    · rw [if_pos (Fin.ext (h.trans hk.symm)), if_pos (by omega), h]
    · rw [if_neg fun e : q = _ => h (e ▸ hk)]
      by_cases h2 : q.val < k
      · rw [if_pos h2, if_pos (by omega)]
      · rw [if_neg h2, if_neg (by omega)]
end loadRegisters

section resetOp
variable (s : State)
@[simp] theorem resetOp_v : s.resetOp.v = Vector.replicate Config.numRegs 0 := rfl
@[simp] theorem resetOp_pc : s.resetOp.pc = 0x200 := rfl
@[simp] theorem resetOp_i : s.resetOp.i = 0 := rfl
@[simp] theorem resetOp_dt : s.resetOp.dt = 0 := rfl
@[simp] theorem resetOp_st : s.resetOp.st = 0 := rfl
@[simp] theorem resetOp_mode : s.resetOp.mode = .halted := rfl
@[simp] theorem resetOp_stack : s.resetOp.stack = [] := rfl
@[simp] theorem resetOp_fb : s.resetOp.fb = s.fb := rfl
@[simp] theorem resetOp_keys : s.resetOp.keys = s.keys := rfl
@[simp] theorem resetOp_draws : s.resetOp.draws = s.draws := rfl
@[simp] theorem resetOp_schedule : s.resetOp.schedule = s.schedule := rfl
end resetOp

section tick
variable (s : State)
@[simp] theorem tick_v : s.tick.v = s.v := rfl
@[simp] theorem tick_pc : s.tick.pc = s.pc := rfl
@[simp] theorem tick_i : s.tick.i = s.i := rfl
@[simp] theorem tick_dt : s.tick.dt = countDown s.dt := rfl
@[simp] theorem tick_st : s.tick.st = countDown s.st := rfl
@[simp] theorem tick_mode : s.tick.mode = s.mode := rfl
@[simp] theorem tick_stack : s.tick.stack = s.stack := rfl
@[simp] theorem tick_mem : s.tick.mem = s.mem := rfl
@[simp] theorem tick_fb : s.tick.fb = s.fb := rfl
@[simp] theorem tick_keys : s.tick.keys = s.keys := rfl
@[simp] theorem tick_draws : s.tick.draws = s.draws := rfl
@[simp] theorem tick_schedule : s.tick.schedule = s.schedule := rfl
end tick

end Sys2Proof.Machine
end

