-- ==== Sys2Proof/Laws/Memory.lean ====
section
/-! SUPPORT. The laws of memory: a read after a write to the same place gives the value written, a write leaves every
other place alone, and every memory operation keeps the canonical form. -/

namespace Sys2Proof.Machine

set_option Elab.async false

theorem read_place_other {a q : Nat} (h : q ≠ a) (b : Byte) (m : Memory) :
    Memory.read (Memory.place a b m) q = Memory.read m q := by
  unfold Memory.place
  split
  · rfl
  · simp [Memory.read, Ne.symm h]

/-- An address below or absent from every cell reads as unlisted. -/
theorem read_absent {m : Memory} {a : Nat} (h : ∀ c ∈ m, c.1 ≠ a) : m.read a = Memory.unlisted a := by
  induction m with
  | nil => rfl
  | cons c m ih =>
    simp only [Memory.read, if_neg (h c (by simp))]
    exact ih fun d hd => h d (by simp [hd])

theorem read_place_same {m : Memory} {a : Nat} (b : Byte) (h : ∀ c ∈ m, c.1 ≠ a) :
    Memory.read (Memory.place a b m) a = b := by
  unfold Memory.place
  split
  · rename_i e; rw [read_absent h, e]
  · simp [Memory.read]

/-- A write leaves every other place alone, whatever the memory. -/
theorem read_write_other {a q : Nat} (h : q ≠ a) (m : Memory) (b : Byte) :
    (m.write a b).read q = m.read q := by
  induction m with
  | nil => exact read_place_other h b []
  | cons c m ih =>
    simp only [Memory.write]
    split
    · exact read_place_other h b (c :: m)
    · split
      · rename_i e
        rw [read_place_other h]
        simp [Memory.read, ← e, Ne.symm h]
      · simp only [Memory.read, ih]

/-- A read after a write to the same place gives the value written, in a canonical memory. -/
theorem read_write_same {m : Memory} (h : m.wf) (a : Nat) (b : Byte) : (m.write a b).read a = b := by
  induction m with
  | nil => exact read_place_same b (by simp)
  | cons c m ih =>
    obtain ⟨hs, hc⟩ := h
    obtain ⟨hs1, hs2⟩ := List.pairwise_cons.1 hs
    simp only [Memory.write]
    split
    · rename_i hlt
      refine read_place_same b fun d hd => ?_
      rcases List.mem_cons.1 hd with rfl | hd
      · omega
      · have := hs1 d hd; omega
    · split
      · rename_i e
        exact read_place_same b fun d hd => by have := hs1 d hd; omega
      · rename_i hne
        simp only [Memory.read, if_neg (Ne.symm hne)]
        exact ih ⟨hs2, fun d hd => hc d (by simp [hd])⟩

/-- Every cell of a written memory is the new one or an old one at another address. -/
theorem mem_write {m : Memory} {a : Nat} {b : Byte} {c : Host.Cell} (h : c ∈ m.write a b) :
    (c = (a, b) ∧ b ≠ Memory.unlisted a) ∨ c ∈ m := by
  induction m with
  | nil =>
    simp only [Memory.write, Memory.place] at h
    split at h
    · simp at h
    · rename_i hb; exact .inl ⟨by simpa using h, hb⟩
  | cons d m ih =>
    simp only [Memory.write, Memory.place] at h
    split at h
    · split at h
      · exact .inr h
      · rename_i hb
        rcases List.mem_cons.1 h with rfl | h
        · exact .inl ⟨rfl, hb⟩
        · exact .inr h
    · split at h
      · split at h
        · exact .inr (by simp [h])
        · rename_i hb
          rcases List.mem_cons.1 h with rfl | h
          · exact .inl ⟨rfl, hb⟩
          · exact .inr (by simp [h])
      · rcases List.mem_cons.1 h with rfl | h
        · exact .inr (by simp)
        · rcases ih h with h | h
          · exact .inl h
          · exact .inr (by simp [h])

/-- A write inside memory keeps the canonical form. -/
theorem wf_write {m : Memory} (h : m.wf) {a : Nat} (ha : a < Config.memSize) (b : Byte) : (m.write a b).wf := by
  refine ⟨?_, fun c hc => ?_⟩
  · obtain ⟨hs, -⟩ := h
    induction m with
    | nil => simp only [Memory.write, Memory.place]; split <;> simp
    | cons c m ih =>
      obtain ⟨hs1, hs2⟩ := List.pairwise_cons.1 hs
      simp only [Memory.write, Memory.place]
      split
      · rename_i hlt
        split
        · exact hs
        · refine List.pairwise_cons.2 ⟨fun d hd => ?_, hs⟩
          rcases List.mem_cons.1 hd with rfl | hd
          · exact hlt
          · exact Nat.lt_trans hlt (hs1 d hd)
      · split
        · rename_i e
          split
          · exact hs2
          · exact List.pairwise_cons.2 ⟨fun d hd => e ▸ hs1 d hd, hs2⟩
        · refine List.pairwise_cons.2 ⟨fun d hd => ?_, ih hs2⟩
          rcases mem_write hd with ⟨rfl, -⟩ | hd
          · show c.1 < a; omega
          · exact hs1 d hd
  · rcases mem_write hc with ⟨rfl, hb⟩ | hc
    · exact ⟨ha, hb⟩
    · exact h.2 c hc

/-- Reset memory, in which nothing is listed, is canonical. -/
theorem wf_nil : Memory.wf [] := ⟨List.Pairwise.nil, by simp⟩

/-- Bytes stored inside memory keep the canonical form. -/
theorem wf_writeBytes {m : Memory} (h : m.wf) {base : Nat} {bs : List Byte}
    (hb : base + bs.length ≤ Config.memSize) : (m.writeBytes base bs).wf := by
  induction bs generalizing m base with
  | nil => exact h
  | cons b bs ih =>
    simp only [List.length_cons] at hb
    exact ih (wf_write h (by omega) b) (by omega)

/-- Stored bytes leave every place outside them alone, whatever the memory. -/
theorem read_writeBytes_outside (m : Memory) {base q : Nat} {bs : List Byte}
    (h : q < base ∨ base + bs.length ≤ q) : (m.writeBytes base bs).read q = m.read q := by
  induction bs generalizing m base with
  | nil => rfl
  | cons b bs ih =>
    simp only [List.length_cons] at h
    rw [Memory.writeBytes, ih _ (by omega), read_write_other (by omega)]

/-- Byte k of the stored bytes is read back at `base + k`, in a canonical memory. -/
theorem read_writeBytes_inside {m : Memory} (h : m.wf) {base : Nat} {bs : List Byte}
    (hb : base + bs.length ≤ Config.memSize) {k : Nat} (hk : k < bs.length) :
    (m.writeBytes base bs).read (base + k) = bs[k] := by
  induction bs generalizing m base k with
  | nil => simp at hk
  | cons b bs ih =>
    simp only [List.length_cons] at hb hk
    have hw := wf_write h (a := base) (by omega) b
    cases k with
    | zero =>
      rw [Memory.writeBytes, read_writeBytes_outside _ (by omega)]
      exact read_write_same h base b
    | succ k =>
      have := ih hw (base := base + 1) (by omega) (k := k) (by omega)
      rw [Memory.writeBytes, show base + (k + 1) = base + 1 + k by omega, this]
      rfl

/-- Clearing memory and then writing the font leaves the memory in which nothing is listed (R232). -/
@[simp] theorem afterReset_eq : Memory.afterReset = [] := by decide +kernel

@[simp] theorem resetOp_mem (s : State) : s.resetOp.mem = [] := by
  simp only [State.resetOp, afterReset_eq]

/-- `Reset()` leaves `State.reset`, but for what it does not write. -/
theorem resetOp_eq (s : State) : s.resetOp =
    { State.reset with fb := s.fb, keys := s.keys, draws := s.draws, schedule := s.schedule } := by
  simp [State.resetOp, State.reset]

/-- `Reset()` does not read what it overwrites, so it forgets a tick. -/
@[simp] theorem resetOp_tick (s : State) : s.tick.resetOp = s.resetOp := rfl

/-- `Reset()` leaves the key levels alone (R236). -/
@[simp] theorem resetOp_setKeys (s : State) (levels : BitVec Config.numKeys) :
    State.resetOp { s with keys := levels } = { s.resetOp with keys := levels } := by
  simp only [State.resetOp]

/-- `Reset()` leaves the model's schedule alone. -/
@[simp] theorem resetOp_setSchedule (s : State) (rest : List Event) :
    State.resetOp { s with schedule := rest } = { s.resetOp with schedule := rest } := by
  simp only [State.resetOp]

/-- A second `Reset()` changes nothing (R234). -/
@[simp] theorem resetOp_resetOp (s : State) : s.resetOp.resetOp = s.resetOp := rfl

/-- A tick does nothing in a machine that is as `Reset()` left it (R207). -/
@[simp] theorem tick_resetOp (s : State) : s.resetOp.tick = s.resetOp := by
  simp [State.resetOp, State.tick, countDown]


end Sys2Proof.Machine
end

