-- ==== Sys2Proof/Laws/Ops.lean ====
section
/-! SUPPORT. One lemma for each shared operation that says everything it can do. -/

namespace Sys2Proof.Machine

set_option Elab.async false

/-- A body's end answers a next state exactly when nothing was raised. -/
theorem commit_next {r : Except Fault State} {t : State} : commit r = .next t ↔ r = .ok t := by
  cases r <;> simp [commit, raise]

theorem commit_fault {r : Except Fault State} {f : Fault} : commit r = .fault f ↔ r = .error f := by
  cases r <;> simp [commit, raise]

theorem commit_not_refused {r : Except Fault State} {q : Refusal} : commit r ≠ .refused q := by
  cases r <;> simp [commit, raise]

/-- An accessing instruction answers its next state exactly when its whole range is in memory. -/
theorem accessing_next {base count : Nat} {t u : State} :
    accessing base count t = .next u ↔ InMemory base count ∧ t = u := by
  unfold accessing raise
  split <;> simp [*]

theorem accessing_fault {base count : Nat} {t : State} {f : Fault} :
    accessing base count t = .fault f ↔ ¬ InMemory base count ∧ f = .outOfBoundsAccess := by
  unfold accessing raise
  split <;> simp [*, eq_comm]

theorem accessing_not_refused {base count : Nat} {t : State} {q : Refusal} :
    accessing base count t ≠ .refused q := by
  unfold accessing raise
  split <;> simp

/-- A push succeeds exactly below the full depth, and appends one entry. -/
theorem push_ok {s t : State} {a : Word} :
    s.push a = .ok t ↔ s.sp < Config.stackDepth ∧ t = { s with stack := s.stack ++ [a] } := by
  unfold State.push
  split
  · rename_i h; simp [Nat.not_lt.2 h]
  · rename_i h; simp [Nat.not_le.1 h, eq_comm]

theorem push_error {s : State} {a : Word} {f : Fault} :
    s.push a = .error f ↔ Config.stackDepth ≤ s.sp ∧ f = .stackOverflow := by
  unfold State.push
  split
  · rename_i h; simp [h, eq_comm]
  · rename_i h; simp [h]

/-- A pop succeeds exactly on a stack with a newest entry, which it removes. -/
theorem pop_ok {s t : State} {a : Word} :
    s.pop = .ok (a, t) ↔ ∃ l, s.stack = l ++ [a] ∧ t = { s with stack := l } := by
  unfold State.pop
  rcases List.eq_nil_or_concat s.stack with h | ⟨l, b, h⟩
  · simp [h]
  · simp only [List.concat_eq_append] at h
    simp only [h, List.getLast?_concat, List.dropLast_concat, Except.ok.injEq, Prod.mk.injEq]
    constructor
    · rintro ⟨rfl, rfl⟩; exact ⟨l, rfl, rfl⟩
    · rintro ⟨l', e, rfl⟩
      obtain ⟨rfl, e2⟩ := List.append_inj' e rfl
      simp at e2
      exact ⟨e2, rfl⟩

theorem pop_error {s : State} {f : Fault} :
    s.pop = .error f ↔ s.sp = 0 ∧ f = .stackUnderflow := by
  unfold State.pop State.sp
  rcases List.eq_nil_or_concat s.stack with h | ⟨l, b, h⟩
  · simp [h, eq_comm]
  · simp [h]

/-- The fetch gives both bytes, high byte first, exactly when both are in memory. -/
theorem fetch_ok {s : State} {w : Word} :
    fetch s = .ok w ↔ s.pc.toNat + 1 < Config.memSize ∧
      opcodeOf (s.readByte s.pc.toNat) (s.readByte (s.pc.toNat + 1)) = w := by
  unfold fetch
  split
  · rename_i h
    simp only [Except.ok.injEq, h, true_and]
    rfl
  · rename_i h; simp [h]

theorem fetch_error {s : State} {f : Fault} :
    fetch s = .error f ↔ Config.memSize ≤ s.pc.toNat + 1 ∧ f = .outOfBoundsAccess := by
  unfold fetch
  split
  · rename_i h; simp [Nat.not_le.2 h]
  · rename_i h; simp [Nat.not_lt.1 h, eq_comm]

/-- An opcode as a number (R91). -/
theorem opcodeOf_toNat (hi lo : Byte) : (opcodeOf hi lo).toNat = hi.toNat * 256 + lo.toNat := by
  rw [opcodeOf, BitVec.toNat_append, ← Nat.shiftLeft_add_eq_or_of_lt lo.isLt, Nat.shiftLeft_eq]

/-- The value of a flag is 0 or 1. -/
theorem flag_toNat (b : Bool) : (flag b).toNat = if b then 1 else 0 := by cases b <;> rfl

/-- The one bit that a toggle inverts in its row. -/
theorem getLsbD_toggleMask (x px : Nat) (hx : x < 64) (hp : px < 64) :
    (1#64 <<< x).getLsbD px = decide (px = x) := by
  rw [BitVec.getLsbD_shiftLeft, BitVec.getLsbD_one]
  by_cases h : px = x
  · subst h; simp [hp]
  · by_cases h2 : px < x
    · simp [h, h2]
    · simp [h, show ¬ px - x = 0 by omega]

/-- A pixel after a toggle: the toggled one is inverted, every other is as before (R13). -/
theorem pixel_toggle (fb : FrameBuffer) (x y px py : Nat) :
    (fb.toggle x y).1.pixel px py =
      if px % Config.displayW = x % Config.displayW ∧ py % Config.displayH = y % Config.displayH
      then !fb.pixel px py else fb.pixel px py := by
  simp only [FrameBuffer.toggle, FrameBuffer.pixel, Config.displayW, Config.displayH]
  by_cases hy : py % 32 = y % 32
  · simp only [hy, Vector.getElem_set_self, BitVec.getLsbD_xor,
      getLsbD_toggleMask _ _ (Nat.mod_lt x (by decide : 0 < 64)) (Nat.mod_lt px (by decide : 0 < 64))]
    by_cases h : px % 64 = x % 64 <;> simp [h]
  · simp [hy, Ne.symm hy]

/-- What a toggle returns: the new value of its pixel (R13). -/
theorem toggle_lit (fb : FrameBuffer) (x y : Nat) : (fb.toggle x y).2 = !fb.pixel x y := by
  simp only [FrameBuffer.toggle, FrameBuffer.pixel, Config.displayW, Config.displayH, BitVec.getLsbD_xor,
    getLsbD_toggleMask _ _ (Nat.mod_lt x (by decide : 0 < 64)) (Nat.mod_lt x (by decide : 0 < 64))]
  simp

/-- A cleared display has no lit pixel (R13). -/
theorem pixel_clear (x y : Nat) : FrameBuffer.clear.pixel x y = false := by
  simp [FrameBuffer.clear, FrameBuffer.pixel]

/-- A frame buffer is its pixels. -/
theorem frameBuffer_ext {fb gb : FrameBuffer}
    (h : ∀ x y, x < Config.displayW → y < Config.displayH → fb.pixel x y = gb.pixel x y) : fb = gb := by
  apply Vector.ext
  intro y hy
  apply BitVec.eq_of_getLsbD_eq
  intro x hx
  have := h x y hx hy
  simpa [FrameBuffer.pixel, Nat.mod_eq_of_lt hx, Nat.mod_eq_of_lt hy] using this

/-- The register list that FX55 stores: entry k is register k. -/
theorem getElem_registers (s : State) {n : Nat} (hn : n ≤ 16) {k : Nat} (hk : k < n)
    (h : k < (s.registers n).length) : (s.registers n)[k] = s.getV ⟨k, Nat.lt_of_lt_of_le hk hn⟩ := by
  simp [State.registers, State.getV]

theorem length_registers (s : State) {n : Nat} (hn : n ≤ 16) : (s.registers n).length = n := by
  simp [State.registers, hn]

/-- A timer after a tick, as a number (R207). -/
theorem countDown_toNat (t : Byte) : (countDown t).toNat = t.toNat - 1 := by
  revert t
  decide +kernel

/-- `Step()` when not `Ready` does nothing (R90). -/
theorem stepCycle_waiting {s : State} (h : s.mode ≠ .ready) : stepCycle s = .next s := by
  unfold stepCycle
  split
  · rfl
  · rfl
  · exact absurd ‹_› h

/-- `Step()` of a ready machine, by its fetch and its decoding (R90 to R95). -/
theorem stepCycle_ready {s : State} (h : s.mode = .ready) : stepCycle s =
    match fetch s with
    | .error f => .fault f
    | .ok w =>
      match decodeWord w with
      | .ok i => exec i s.advance
      | .error _ => .next s.advance := by
  simp only [stepCycle, h, executeWord, execUnknown, raise]
  rcases fetch s with f | w <;> rfl

/-- What a step of the machine does: the next event, or `Step()`. -/
theorem step_nil {s : State} (h : s.schedule = []) : step s = stepCycle s := by
  simp [step, nextEvent, h]

theorem step_cons {s : State} {e : Event} {rest : List Event} (h : s.schedule = e :: rest) :
    step s = perform e { s with schedule := rest } := by
  simp [step, nextEvent, h]

end Sys2Proof.Machine
end

