-- ==== Sys2Proof/Laws/Draw.lean ====
section
/-! SUPPORT. What drawing a pixel, a row and a whole sprite does to every pixel of the display, and when it collides. -/

namespace Sys2Proof.Machine

set_option Elab.async false

/-- A sprite pixel inverts the display pixel it wraps to when its bit is 1, and no other (R151). -/
theorem pixel_drawPixel (p : FrameBuffer × Bool) (lit : Bool) (x y : Nat) (px py : Nat) :
    (drawPixel p lit x y).1.pixel px py =
      Bool.xor (p.1.pixel px py) (lit && decide (px % 64 = x % 64 ∧ py % 32 = y % 32)) := by
  unfold drawPixel
  cases lit
  · simp
  · simp only [if_true, pixel_toggle, Config.displayW, Config.displayH]
    by_cases h : px % 64 = x % 64 ∧ py % 32 = y % 32 <;> simp [h]

/-- A sprite pixel collides when its bit is 1 on a lit display pixel (R152). -/
theorem collides_drawPixel (p : FrameBuffer × Bool) (lit : Bool) (x y : Nat) :
    (drawPixel p lit x y).2 = (p.2 || (lit && p.1.pixel x y)) := by
  unfold drawPixel; cases lit <;> simp [toggle_lit]

/-- A 1 bit of the rows of a sprite in memory lands on the display pixel (px, py) (R151). -/
def RowsCover (mem : Memory) (base x0 y0 rows px py : Nat) : Prop :=
  ∃ r c, r < rows ∧ c < 8 ∧ (mem.read (base + r)).getLsbD (7 - c) = true ∧
    (x0 + c) % 64 = px ∧ (y0 + r) % 32 = py

/-- A 1 bit of one row of a sprite lands on the display pixel (px, py) (R151). -/
def RowCovers (b : Byte) (x0 y cols px py : Nat) : Prop :=
  ∃ c, c < cols ∧ b.getLsbD (7 - c) = true ∧ (x0 + c) % 64 = px ∧ y % 32 = py

/-- Inverting on two disjoint conditions, one after the other, is inverting on either. -/
theorem xor_or {a b c d : Prop} (h : c → ¬ b) (h1 : d ↔ ¬ (a ↔ b)) :
    (¬ (d ↔ c)) ↔ ¬ (a ↔ b ∨ c) := by tauto

/-- What is not inverted is as it was. -/
theorem unlit_iff {a b : Prop} (e : ¬ b) : (¬ (a ↔ b)) ↔ a := by tauto

/-- One row of a sprite: what every pixel becomes, and when it collides (R152). -/
theorem drawRow_spec (p : FrameBuffer × Bool) (b : Byte) (x0 y cols : Nat) (hc : cols ≤ 8) :
    (∀ px py, px < 64 → py < 32 → ((drawRow p b x0 y cols).1.pixel px py = true ↔
      ¬ (p.1.pixel px py = true ↔ RowCovers b x0 y cols px py))) ∧
    ((drawRow p b x0 y cols).2 = true ↔ p.2 = true ∨
      ∃ px py, px < 64 ∧ py < 32 ∧ p.1.pixel px py = true ∧ RowCovers b x0 y cols px py) := by
  induction cols with
  | zero => simp [drawRow, RowCovers]
  | succ n ih =>
    obtain ⟨h1, h2⟩ := ih (by omega)
    have hx : (x0 + n) % 64 < 64 := by omega
    have hy : y % 32 < 32 := by omega
    have nohit : ¬ RowCovers b x0 y n ((x0+n)%64) (y%32) := by rintro ⟨c, hc, -, h, -⟩; omega
    have split : ∀ px py, RowCovers b x0 y (n+1) px py ↔ RowCovers b x0 y n px py ∨
        (b.getLsbD (7-n) = true ∧ (x0+n)%64 = px ∧ y%32 = py) := by
      intro px py
      constructor
      · rintro ⟨c, h, h'⟩
        by_cases e : c = n
        · subst e; exact .inr h'
        · exact .inl ⟨c, by omega, h'⟩
      · rintro (⟨c, h, h'⟩ | h)
        · exact ⟨c, by omega, h'⟩
        · exact ⟨n, by omega, h⟩
    have pm : ∀ fb : FrameBuffer, fb.pixel (x0+n) y = fb.pixel ((x0+n)%64) (y%32) := by
      intro fb; simp [FrameBuffer.pixel, Config.displayW, Config.displayH]
    constructor
    · intro px py hpx hpy
      rw [drawRow, pixel_drawPixel, split]
      have := h1 px py hpx hpy
      by_cases e : (x0+n)%64 = px ∧ y%32 = py
      · obtain ⟨rfl, rfl⟩ := e
        have q : ¬ RowCovers b x0 y n ((x0+n)%64) (y%32) := nohit
        simp only [q, iff_false, Classical.not_not] at this
        have hb : (drawRow p b x0 y n).1.pixel ((x0+n)%64) (y%32) = p.1.pixel ((x0+n)%64) (y%32) := by
          rw [Bool.eq_iff_iff]; exact this
        simp [q, hb]
      · have e' : ¬ (px % 64 = (x0+n)%64 ∧ py % 32 = y%32) := by
          rw [Nat.mod_eq_of_lt hpx, Nat.mod_eq_of_lt hpy]; rintro ⟨rfl, rfl⟩; exact e ⟨rfl, rfl⟩
        have e'' : ¬ (b.getLsbD (7-n) = true ∧ (x0+n)%64 = px ∧ y%32 = py) := fun h => e h.2
        simp only [e', e'', decide_false, Bool.and_false, Bool.xor_false, or_false]
        exact this
    · rw [drawRow, collides_drawPixel, pm]
      have := h1 _ _ hx hy
      simp only [nohit, iff_false, Classical.not_not] at this
      rw [Bool.or_eq_true, h2, Bool.and_eq_true, this]
      constructor
      · rintro ((h | ⟨px, py, a, b', c, d⟩) | ⟨h, h'⟩)
        · exact .inl h
        · exact .inr ⟨px, py, a, b', c, (split _ _).2 (.inl d)⟩
        · exact .inr ⟨_, _, hx, hy, h', (split _ _).2 (.inr ⟨h, rfl, rfl⟩)⟩
      · rintro (h | ⟨px, py, a, b', c, d⟩)
        · exact .inl (.inl h)
        · rcases (split _ _).1 d with d | ⟨d', rfl, rfl⟩
          · exact .inl (.inr ⟨px, py, a, b', c, d⟩)
          · exact .inr ⟨d', c⟩

/-- A whole sprite: what every pixel becomes, and when it collides (R152). -/
theorem drawRows_spec (p : FrameBuffer × Bool) (mem : Memory) (base x0 y0 rows : Nat) (hr : rows ≤ 32) :
    (∀ px py, px < 64 → py < 32 → ((drawRows p mem base x0 y0 rows).1.pixel px py = true ↔
      ¬ (p.1.pixel px py = true ↔ RowsCover mem base x0 y0 rows px py))) ∧
    ((drawRows p mem base x0 y0 rows).2 = true ↔ p.2 = true ∨
      ∃ px py, px < 64 ∧ py < 32 ∧ p.1.pixel px py = true ∧ RowsCover mem base x0 y0 rows px py) := by
  induction rows with
  | zero => simp [drawRows, RowsCover]
  | succ n ih =>
    obtain ⟨h1, h2⟩ := ih (by omega)
    obtain ⟨r1, r2⟩ := drawRow_spec (drawRows p mem base x0 y0 n) (mem.read (base+n)) x0 (y0+n) 8 (by omega)
    have excl : ∀ px py, RowCovers (mem.read (base+n)) x0 (y0+n) 8 px py → ¬ RowsCover mem base x0 y0 n px py := by
      rintro px py ⟨c, -, -, -, rfl⟩ ⟨r, c', h, -, -, -, e⟩; omega
    have split : ∀ px py, RowsCover mem base x0 y0 (n+1) px py ↔ RowsCover mem base x0 y0 n px py ∨
        RowCovers (mem.read (base+n)) x0 (y0+n) 8 px py := by
      intro px py
      constructor
      · rintro ⟨r, c, h, h'⟩
        by_cases e : r = n
        · subst e; exact .inr ⟨c, h'⟩
        · exact .inl ⟨r, c, by omega, h'⟩
      · rintro (⟨r, c, h, h'⟩ | ⟨c, h⟩)
        · exact ⟨r, c, by omega, h'⟩
        · exact ⟨n, c, by omega, h⟩
    constructor
    · intro px py hx hy
      rw [drawRows, r1 _ _ hx hy, split]
      exact xor_or (excl px py) (h1 _ _ hx hy)
    · rw [drawRows, r2, h2]
      constructor
      · rintro ((h | ⟨px, py, a, b, c, d⟩) | ⟨px, py, a, b, c, d⟩)
        · exact .inl h
        · exact .inr ⟨px, py, a, b, c, (split _ _).2 (.inl d)⟩
        · have := (h1 px py a b).1 c
          have e := excl _ _ d
          exact .inr ⟨px, py, a, b, (unlit_iff e).1 this, (split _ _).2 (.inr d)⟩
      · rintro (h | ⟨px, py, a, b, c, d⟩)
        · exact .inl (.inl h)
        · rcases (split _ _).1 d with d | d
          · exact .inl (.inr ⟨px, py, a, b, c, d⟩)
          · have e := excl _ _ d
            exact .inr ⟨px, py, a, b, (h1 px py a b).2 ((unlit_iff e).2 c), d⟩

end Sys2Proof.Machine
end

