-- ==== Sys2Proof/Laws/Encoding.lean ====
section
/-! SUPPORT. The fields of an encoded word, format by format, and its bits under the masks of the opcode map. -/

namespace Sys2Proof

theorem append_and {n m : Nat} (a c : BitVec n) (b d : BitVec m) :
    (a ++ b) &&& (c ++ d) = (a &&& c) ++ (b &&& d) := by
  ext i h
  simp only [BitVec.getElem_and, BitVec.getElem_append]
  split <;> simp

/-- Format NNN under its mask: the family alone (R75). -/
theorem mask_encodeNNN (f : BitVec 4) (a : Addr) : encodeNNN f a &&& 0xF000#16 = f ++ 0#12 := by
  rw [encodeNNN, show 0xF000#16 = BitVec.allOnes 4 ++ 0#12 by rfl, append_and]
  simp only [BitVec.and_allOnes, BitVec.and_zero]

/-- Format XNN under its mask: the family alone (R75). -/
theorem mask_encodeXNN (f : BitVec 4) (x : Reg) (nn : Byte) :
    encodeXNN f x nn &&& 0xF000#16 = (f ++ 0#4) ++ 0#8 := by
  rw [encodeXNN, show 0xF000#16 = (BitVec.allOnes 4 ++ 0#4) ++ 0#8 by rfl, append_and, append_and]
  simp only [BitVec.and_allOnes, BitVec.and_zero]

/-- Format X under its mask: the family and the low byte (R75). -/
theorem mask_encodeX (f : BitVec 4) (x : Reg) (sub : Byte) :
    encodeXNN f x sub &&& 0xF0FF#16 = (f ++ 0#4) ++ sub := by
  rw [encodeXNN, show 0xF0FF#16 = (BitVec.allOnes 4 ++ 0#4) ++ BitVec.allOnes 8 by rfl, append_and, append_and]
  simp only [BitVec.and_allOnes, BitVec.and_zero]

/-- Format XYN under its mask: the family alone (R75). -/
theorem mask_encodeXYN (f : BitVec 4) (x y : Reg) (n : BitVec 4) :
    encodeXYN f x y n &&& 0xF000#16 = ((f ++ 0#4) ++ 0#4) ++ 0#4 := by
  rw [encodeXYN, show 0xF000#16 = ((BitVec.allOnes 4 ++ 0#4) ++ 0#4) ++ 0#4 by rfl,
    append_and, append_and, append_and]
  simp only [BitVec.and_allOnes, BitVec.and_zero]

/-- Format XY under its mask: the family and the low nibble (R75). -/
theorem mask_encodeXY (f : BitVec 4) (x y : Reg) (n : BitVec 4) :
    encodeXYN f x y n &&& 0xF00F#16 = ((f ++ 0#4) ++ 0#4) ++ n := by
  rw [encodeXYN, show 0xF00F#16 = ((BitVec.allOnes 4 ++ 0#4) ++ 0#4) ++ BitVec.allOnes 4 by rfl,
    append_and, append_and, append_and]
  simp only [BitVec.and_allOnes, BitVec.and_zero]

section fields
variable (f : BitVec 4) (x y : Reg) (nn : Byte) (nnn : Addr) (n : BitVec 4)

@[simp] theorem family_encodeNNN : family (encodeNNN f nnn) = f :=
  BitVec.extractLsb'_append_eq_left (a := f) (b := nnn)

@[simp] theorem fieldNNN_encodeNNN : fieldNNN (encodeNNN f nnn) = nnn :=
  BitVec.extractLsb'_append_eq_right (a := f) (b := nnn)

@[simp] theorem family_encodeXNN : family (encodeXNN f x nn) = f := by
  unfold family encodeXNN
  rw [BitVec.extractLsb'_append_eq_of_le (by decide)]
  exact BitVec.extractLsb'_append_eq_left

@[simp] theorem fieldX_encodeXNN : fieldX (encodeXNN f x nn) = x := by
  unfold fieldX encodeXNN
  rw [BitVec.extractLsb'_append_eq_of_le (by decide)]
  exact congrArg BitVec.toFin (BitVec.extractLsb'_append_eq_right (a := f) (b := nibble x))

@[simp] theorem fieldNN_encodeXNN : fieldNN (encodeXNN f x nn) = nn :=
  BitVec.extractLsb'_append_eq_right (a := f ++ nibble x) (b := nn)

@[simp] theorem family_encodeXYN : family (encodeXYN f x y n) = f := by
  unfold family encodeXYN
  rw [BitVec.extractLsb'_append_eq_of_le (by decide), BitVec.extractLsb'_append_eq_of_le (by decide)]
  exact BitVec.extractLsb'_append_eq_left

@[simp] theorem fieldX_encodeXYN : fieldX (encodeXYN f x y n) = x := by
  unfold fieldX encodeXYN
  rw [BitVec.extractLsb'_append_eq_of_le (by decide), BitVec.extractLsb'_append_eq_of_le (by decide)]
  exact congrArg BitVec.toFin (BitVec.extractLsb'_append_eq_right (a := f) (b := nibble x))

@[simp] theorem fieldY_encodeXYN : fieldY (encodeXYN f x y n) = y := by
  unfold fieldY encodeXYN
  rw [BitVec.extractLsb'_append_eq_of_le (by decide)]
  exact congrArg BitVec.toFin (BitVec.extractLsb'_append_eq_right (a := f ++ nibble x) (b := nibble y))

@[simp] theorem subOpcode_encodeXYN : subOpcode (encodeXYN f x y n) = n :=
  BitVec.extractLsb'_append_eq_right (a := f ++ nibble x ++ nibble y) (b := n)

@[simp] theorem fieldN_encodeXYN (m : Fin 16) : fieldN (encodeXYN f x y (nibble m)) = m :=
  congrArg BitVec.toFin
    (BitVec.extractLsb'_append_eq_right (a := f ++ nibble x ++ nibble y) (b := nibble m))
end fields

/-- The two bytes of a word, put together again, are the word (R50). -/
theorem opcodeOf_bytes (w : Word) : opcodeOf (highByte w) (lowByte w) = w := by
  unfold opcodeOf highByte lowByte
  ext i h
  simp only [BitVec.getElem_append, BitVec.getElem_extractLsb']
  split
  · simp [← BitVec.getLsbD_eq_getElem]
  · rw [← BitVec.getLsbD_eq_getElem, show 8 + (i - 8) = i by omega]

end Sys2Proof
end

