-- ==== Sys2Proof/Laws/PerInstr.lean ====
section
/-! SUPPORT. Facts about every instruction as syntax, one lemma per constructor: it is well formed, and its opcode
matches the row of the opcode map that bears its mnemonic (30_encoding.md R75, R80). -/

namespace Sys2Proof.Laws.OwnRow

/-- The operands lie in the ranges of the format, and the opcode matches the instruction's own row. -/
def Statement (i : Instr) : Prop := i.WellFormed ∧ i.mnemonic.Matches (encode i)

/-- Two operands in range. -/
theorem fit2 {v w a b : Nat} (hv : v < a) (hw : w < b) : operandsFit [v, w] [a, b] = true := by
  simp [operandsFit, hv, hw]

/-- One operand in range. -/
theorem fit1 {v a : Nat} (hv : v < a) : operandsFit [v] [a] = true := by
  simp [operandsFit, hv]

/-- Three operands in range. -/
theorem fit3 {u v w a b c : Nat} (hu : u < a) (hv : v < b) (hw : w < c) :
    operandsFit [u, v, w] [a, b, c] = true := by
  simp [operandsFit, hu, hv, hw]

theorem cls : Statement .cls :=
  ⟨rfl, by decide⟩

theorem ret : Statement .ret :=
  ⟨rfl, by decide⟩

theorem jp (nnn : Addr) : Statement (.jp nnn) :=
  ⟨fit1 nnn.isLt, mask_encodeNNN 1 nnn⟩

theorem call (nnn : Addr) : Statement (.call nnn) :=
  ⟨fit1 nnn.isLt, mask_encodeNNN 2 nnn⟩

theorem seImm (x : Reg) (nn : Byte) : Statement (.seImm x nn) :=
  ⟨fit2 x.isLt nn.isLt, mask_encodeXNN 3 x nn⟩

theorem sneImm (x : Reg) (nn : Byte) : Statement (.sneImm x nn) :=
  ⟨fit2 x.isLt nn.isLt, mask_encodeXNN 4 x nn⟩

theorem seReg (x : Reg) (y : Reg) : Statement (.seReg x y) :=
  ⟨fit2 x.isLt y.isLt, mask_encodeXY 5 x y 0⟩

theorem sneReg (x : Reg) (y : Reg) : Statement (.sneReg x y) :=
  ⟨fit2 x.isLt y.isLt, mask_encodeXY 9 x y 0⟩

theorem ldImm (x : Reg) (nn : Byte) : Statement (.ldImm x nn) :=
  ⟨fit2 x.isLt nn.isLt, mask_encodeXNN 6 x nn⟩

theorem addImm (x : Reg) (nn : Byte) : Statement (.addImm x nn) :=
  ⟨fit2 x.isLt nn.isLt, mask_encodeXNN 7 x nn⟩

theorem ldReg (x : Reg) (y : Reg) : Statement (.ldReg x y) :=
  ⟨fit2 x.isLt y.isLt, mask_encodeXY 8 x y 0⟩

theorem or (x : Reg) (y : Reg) : Statement (.or x y) :=
  ⟨fit2 x.isLt y.isLt, mask_encodeXY 8 x y 1⟩

theorem and (x : Reg) (y : Reg) : Statement (.and x y) :=
  ⟨fit2 x.isLt y.isLt, mask_encodeXY 8 x y 2⟩

theorem xor (x : Reg) (y : Reg) : Statement (.xor x y) :=
  ⟨fit2 x.isLt y.isLt, mask_encodeXY 8 x y 3⟩

theorem addReg (x : Reg) (y : Reg) : Statement (.addReg x y) :=
  ⟨fit2 x.isLt y.isLt, mask_encodeXY 8 x y 4⟩

theorem sub (x : Reg) (y : Reg) : Statement (.sub x y) :=
  ⟨fit2 x.isLt y.isLt, mask_encodeXY 8 x y 5⟩

theorem shr (x : Reg) (y : Reg) : Statement (.shr x y) :=
  ⟨fit2 x.isLt y.isLt, mask_encodeXY 8 x y 6⟩

theorem subn (x : Reg) (y : Reg) : Statement (.subn x y) :=
  ⟨fit2 x.isLt y.isLt, mask_encodeXY 8 x y 7⟩

theorem shl (x : Reg) (y : Reg) : Statement (.shl x y) :=
  ⟨fit2 x.isLt y.isLt, mask_encodeXY 8 x y 14⟩

theorem ldI (nnn : Addr) : Statement (.ldI nnn) :=
  ⟨fit1 nnn.isLt, mask_encodeNNN 10 nnn⟩

theorem jpV0 (nnn : Addr) : Statement (.jpV0 nnn) :=
  ⟨fit1 nnn.isLt, mask_encodeNNN 11 nnn⟩

theorem rnd (x : Reg) (nn : Byte) : Statement (.rnd x nn) :=
  ⟨fit2 x.isLt nn.isLt, mask_encodeXNN 12 x nn⟩

theorem drw (x : Reg) (y : Reg) (n : Fin 16) : Statement (.drw x y n) :=
  ⟨fit3 x.isLt y.isLt n.isLt, mask_encodeXYN 13 x y (nibble n)⟩

theorem skp (x : Reg) : Statement (.skp x) :=
  ⟨fit1 x.isLt, mask_encodeX 14 x 0x9E⟩

theorem sknp (x : Reg) : Statement (.sknp x) :=
  ⟨fit1 x.isLt, mask_encodeX 14 x 0xA1⟩

theorem ldVxDt (x : Reg) : Statement (.ldVxDt x) :=
  ⟨fit1 x.isLt, mask_encodeX 15 x 0x07⟩

theorem ldDtVx (x : Reg) : Statement (.ldDtVx x) :=
  ⟨fit1 x.isLt, mask_encodeX 15 x 0x15⟩

theorem ldStVx (x : Reg) : Statement (.ldStVx x) :=
  ⟨fit1 x.isLt, mask_encodeX 15 x 0x18⟩

theorem ldVxK (x : Reg) : Statement (.ldVxK x) :=
  ⟨fit1 x.isLt, mask_encodeX 15 x 0x0A⟩

theorem addI (x : Reg) : Statement (.addI x) :=
  ⟨fit1 x.isLt, mask_encodeX 15 x 0x1E⟩

theorem ldF (x : Reg) : Statement (.ldF x) :=
  ⟨fit1 x.isLt, mask_encodeX 15 x 0x29⟩

theorem ldB (x : Reg) : Statement (.ldB x) :=
  ⟨fit1 x.isLt, mask_encodeX 15 x 0x33⟩

theorem stRegs (x : Reg) : Statement (.stRegs x) :=
  ⟨fit1 x.isLt, mask_encodeX 15 x 0x55⟩

theorem ldRegs (x : Reg) : Statement (.ldRegs x) :=
  ⟨fit1 x.isLt, mask_encodeX 15 x 0x65⟩

end Sys2Proof.Laws.OwnRow
end

