-- ==== Sys2Proof/Tests/Slice0.lean ====
section
/-! SUPPORT. Tests: ill-formed lines refused, one word of every instruction decoded, one step of every instruction, the
driver's operations, and a witness for the hypotheses of every statement that has some. Expected results are those of
95_test_vectors.md and of the rules, never the model's own answers. -/

namespace Sys2Proof.Tests

open Sys2Proof Sys2Proof.Machine

-- Many small theorems: elaborated one after another, so that the kernel needs few threads.
set_option Elab.async false

/-! ### Well-formedness (30_encoding.md R71, R80): an ill-formed term for each check -/

theorem test_wf_good : AsmLine.wellFormed ⟨.DRW, [15, 15, 15]⟩ = true ∧ AsmLine.wellFormed ⟨.CLS, []⟩ = true ∧
    AsmLine.wellFormed ⟨.JP, [0xFFF]⟩ = true ∧ AsmLine.wellFormed ⟨.LD_IMM, [15, 0xFF]⟩ = true := by decide
theorem test_wf_too_few_operands : AsmLine.wellFormed ⟨.ADD_REG, [1]⟩ = false := by decide
theorem test_wf_too_many_operands : AsmLine.wellFormed ⟨.RET, [0]⟩ = false := by decide
theorem test_wf_register_16 : AsmLine.wellFormed ⟨.LD_B, [16]⟩ = false ∧
    AsmLine.wellFormed ⟨.SE_REG, [0, 16]⟩ = false := by decide
theorem test_wf_byte_256 : AsmLine.wellFormed ⟨.RND, [0, 0x100]⟩ = false := by decide
theorem test_wf_address_4096 : AsmLine.wellFormed ⟨.LD_I, [0x1000]⟩ = false := by decide
theorem test_wf_rows_16 : AsmLine.wellFormed ⟨.DRW, [0, 0, 16]⟩ = false := by decide
theorem test_ill_formed_line_is_no_instruction : AsmLine.toInstr ⟨.JP, [0x1000]⟩ = none ∧
    AsmLine.toInstr ⟨.SUB, [16, 0]⟩ = none ∧ AsmLine.toInstr ⟨.SUB, [15, 0]⟩ = some (.sub 15 0) := by decide

/-! ### Decoding: the words of 95_test_vectors.md 2.1, bit by bit from the patterns of R75 -/

theorem test_decode_cls : decodeWord 0b0000_0000_1110_0000 = .ok .cls := by decide
theorem test_decode_ret : decodeWord 0b0000_0000_1110_1110 = .ok .ret := by decide
theorem test_decode_jp : decodeWord 0b0001_1010_1011_1100 = .ok (.jp 0xABC) := by decide
theorem test_decode_call : decodeWord 0b0010_1111_1111_1111 = .ok (.call 0xFFF) := by decide
theorem test_decode_se_imm : decodeWord 0b0011_1010_0111_1111 = .ok (.seImm 0xA 0x7F) := by decide
theorem test_decode_sne_imm : decodeWord 0b0100_1011_0000_0000 = .ok (.sneImm 0xB 0x00) := by decide
theorem test_decode_se_reg : decodeWord 0b0101_0001_0010_0000 = .ok (.seReg 1 2) := by decide
theorem test_decode_ld_imm : decodeWord 0b0110_1100_0100_0010 = .ok (.ldImm 0xC 0x42) := by decide
theorem test_decode_add_imm : decodeWord 0b0111_1101_1111_1111 = .ok (.addImm 0xD 0xFF) := by decide
theorem test_decode_ld_reg : decodeWord 0b1000_1010_1011_0000 = .ok (.ldReg 0xA 0xB) := by decide
theorem test_decode_or : decodeWord 0b1000_1010_1011_0001 = .ok (.or 0xA 0xB) := by decide
theorem test_decode_and : decodeWord 0b1000_1010_1011_0010 = .ok (.and 0xA 0xB) := by decide
theorem test_decode_xor : decodeWord 0b1000_1010_1011_0011 = .ok (.xor 0xA 0xB) := by decide
theorem test_decode_add_reg : decodeWord 0b1000_1010_1011_0100 = .ok (.addReg 0xA 0xB) := by decide
theorem test_decode_sub : decodeWord 0b1000_1010_1011_0101 = .ok (.sub 0xA 0xB) := by decide
theorem test_decode_shr : decodeWord 0b1000_1010_1011_0110 = .ok (.shr 0xA 0xB) := by decide
theorem test_decode_subn : decodeWord 0b1000_1010_1011_0111 = .ok (.subn 0xA 0xB) := by decide
theorem test_decode_shl : decodeWord 0b1000_1010_1011_1110 = .ok (.shl 0xA 0xB) := by decide
theorem test_decode_sne_reg : decodeWord 0b1001_0001_0010_0000 = .ok (.sneReg 1 2) := by decide
theorem test_decode_ld_i : decodeWord 0b1010_0001_0010_0011 = .ok (.ldI 0x123) := by decide
theorem test_decode_jp_v0 : decodeWord 0b1011_0011_0000_0000 = .ok (.jpV0 0x300) := by decide
theorem test_decode_rnd : decodeWord 0b1100_0101_0000_1111 = .ok (.rnd 5 0x0F) := by decide
theorem test_decode_drw : decodeWord 0b1101_0001_0010_0101 = .ok (.drw 1 2 5) := by decide
theorem test_decode_skp : decodeWord 0b1110_0100_1001_1110 = .ok (.skp 4) := by decide
theorem test_decode_sknp : decodeWord 0b1110_0100_1010_0001 = .ok (.sknp 4) := by decide
theorem test_decode_ld_vx_dt : decodeWord 0b1111_0011_0000_0111 = .ok (.ldVxDt 3) := by decide
theorem test_decode_ld_vx_k : decodeWord 0b1111_0011_0000_1010 = .ok (.ldVxK 3) := by decide
theorem test_decode_ld_dt_vx : decodeWord 0b1111_0011_0001_0101 = .ok (.ldDtVx 3) := by decide
theorem test_decode_ld_st_vx : decodeWord 0b1111_0011_0001_1000 = .ok (.ldStVx 3) := by decide
theorem test_decode_add_i : decodeWord 0b1111_0011_0001_1110 = .ok (.addI 3) := by decide
theorem test_decode_ld_f : decodeWord 0b1111_0011_0010_1001 = .ok (.ldF 3) := by decide
theorem test_decode_ld_b : decodeWord 0b1111_0011_0011_0011 = .ok (.ldB 3) := by decide
theorem test_decode_st_regs : decodeWord 0b1111_0011_0101_0101 = .ok (.stRegs 3) := by decide
theorem test_decode_ld_regs : decodeWord 0b1111_0011_0110_0101 = .ok (.ldRegs 3) := by decide

/-- The Unknown rows of 95_test_vectors.md 2.1. -/
theorem test_unknown_words : ([0x0000, 0x00E1, 0x0123, 0x5121, 0x8AB8, 0x8AB9, 0x8ABA, 0x8ABB, 0x8ABC, 0x8ABD,
    0x8ABF, 0x912F, 0xE49F, 0xE400, 0xF300, 0xF375, 0xF385, 0xF3FF] : List Word).map decodeOpcode =
    List.replicate 18 none := by decide

theorem test_decode_table_word : decodeTableWord 16 0x8AB7 = some (.subn 0xA 0xB) ∧
    decodeTableWord 16 0x5121 = none := by decide

/-! ### One step: the rows of 95_test_vectors.md 2.2 to 2.10 -/

/-- The next state of an answer, if it is one. -/
def next? : Result → Option State
  | .next t => some t
  | .fault _ => none
  | .refused _ => none

/-- The state right after reset with some registers written. -/
def regs (l : List (Reg × Byte)) : State := l.foldl (fun s p => s.setV p.1 p.2) State.reset

/-- The next state of one step that runs the word `w`. -/
def ran (s : State) (w : Nat) : Option State := next? (step (s.withFetchWord 16 w))

/-- What one step that runs the word `w` raises. -/
def raised (s : State) (w : Nat) : Option Fault := Result.error? (step (s.withFetchWord 16 w))

theorem test_halted_step_does_nothing : next? (step State.reset) = some State.reset := by decide
theorem test_unknown_advances : (ran State.reset 0x5121).map (fun t => (t.pc, t.v, t.stack)) =
    some (0x202, State.reset.v, []) := by decide
theorem test_odd_pc_fetches : (ran { State.reset with pc := 0x201 } 0x6007).map (fun t => (t.getV 0, t.pc)) =
    some (7, 0x203) := by decide
theorem test_fetch_at_the_end :
    (next? (step { State.reset with mode := .ready, pc := 0xFFE })).map State.pc = some 0x1000 ∧
    reported .step { State.reset with mode := .ready, pc := 0xFFF } = some .outOfBoundsAccess ∧
    reported .step { State.reset with mode := .ready, pc := 0x1000 } = some .outOfBoundsAccess := by decide

theorem test_jp_idle : (ran { State.reset with pc := 0x208 } 0x1208).map State.pc = some 0x208 := by decide
theorem test_call : (ran { State.reset with pc := 0x204 } 0x220A).map (fun t => (t.stack, t.pc)) =
    some ([0x206], 0x20A) := by decide
theorem test_call_full : raised { State.reset with stack := List.replicate 16 0x202 } 0x2300 = some .stackOverflow ∧
    (ran { State.reset with stack := List.replicate 15 0x202 } 0x2300).map (fun t => (t.sp, t.pc)) =
      some (16, 0x300) := by decide
theorem test_ret : (ran { State.reset with stack := [0x400, 0x206] } 0x00EE).map (fun t => (t.stack, t.pc)) =
    some ([0x400], 0x206) := by decide
theorem test_ret_empty : raised State.reset 0x00EE = some .stackUnderflow := by decide
theorem test_jp_v0 : (ran (regs [(0, 0xFF)]) 0xBFFF).map State.pc = some 0x10FE ∧
    (ran (regs [(0, 0x04), (3, 0x10)]) 0xB300).map State.pc = some 0x304 := by decide

theorem test_se_imm : (ran (regs [(3, 0x2A)]) 0x332A).map State.pc = some 0x204 ∧
    (ran (regs [(3, 0x2B)]) 0x332A).map State.pc = some 0x202 := by decide
theorem test_sne_imm : (ran (regs [(3, 0x2A)]) 0x432A).map State.pc = some 0x202 ∧
    (ran State.reset 0x432A).map State.pc = some 0x204 := by decide
theorem test_se_reg : (ran (regs [(1, 7), (2, 7)]) 0x5120).map State.pc = some 0x204 ∧
    (ran (regs [(1, 7), (2, 8)]) 0x5120).map State.pc = some 0x202 := by decide
theorem test_sne_reg : (ran (regs [(1, 7), (2, 8)]) 0x9120).map State.pc = some 0x204 ∧
    (ran (regs [(1, 7), (2, 7)]) 0x9120).map State.pc = some 0x202 := by decide

/-- VX and VF after an instruction with X = 1, Y = 2, from `a` and `b`, with VF = 0x55 before. -/
def alu (w : Nat) (a b : Byte) : Option (Byte × Byte) :=
  (ran (regs [(1, a), (2, b), (VF, 0x55)]) w).map fun t => (t.getV 1, t.getV VF)

/-- VF after an instruction with X = F, Y = 1, from `f` and `b`. -/
def aluF (w : Nat) (f b : Byte) : Option Byte := (ran (regs [(1, b), (VF, f)]) w).map fun t => t.getV VF

theorem test_ld_imm : (ran State.reset 0x6C42).map (fun t => (t.getV 0xC, t.getV 0, t.pc)) = some (0x42, 0, 0x202) := by
  decide
theorem test_add_imm : alu 0x7120 0xF0 0 = some (0x10, 0x55) ∧ aluF 0x7F03 0xFE 0 = some 0x01 := by decide
theorem test_ld_reg : alu 0x8120 0x12 0x3C = some (0x3C, 0x55) := by decide
theorem test_or : alu 0x8121 0xF0 0x0F = some (0xFF, 0x55) ∧ aluF 0x8F11 0x01 0xF0 = some 0xF1 := by decide
theorem test_and : alu 0x8122 0xF3 0x3C = some (0x30, 0x55) := by decide
theorem test_xor : alu 0x8123 0xFF 0x0F = some (0xF0, 0x55) := by decide
theorem test_add_reg : alu 0x8124 0xFF 0x01 = some (0x00, 1) ∧ alu 0x8124 0x7F 0x80 = some (0xFF, 0) := by decide
theorem test_add_reg_into_vf : aluF 0x8F14 0xFF 0x02 = some 1 ∧ aluF 0x8F14 0x01 0x02 = some 0 := by decide
theorem test_sub : alu 0x8125 0x05 0x03 = some (0x02, 1) ∧ alu 0x8125 0x03 0x05 = some (0xFE, 0) ∧
    alu 0x8125 0x05 0x05 = some (0x00, 0) := by decide
theorem test_sub_into_vf : aluF 0x8F15 0x05 0x03 = some 1 ∧ aluF 0x8F15 0x03 0x05 = some 0 := by decide
theorem test_shr : alu 0x8126 0x05 0xAA = some (0x02, 1) ∧ alu 0x8126 0x80 0x01 = some (0x40, 0) := by decide
/-- The last column of table 2.5: the other value of `SHIFT_SRC`. -/
theorem test_shift_from_vy : ((regs [(1, 0x05), (2, 0xAA)]).shiftRight .vy 1 2).getV 1 = 0x55 ∧
    ((regs [(1, 0x40), (2, 0xFF)]).shiftLeft .vy 1 2).getV 1 = 0xFE := by decide
theorem test_subn : alu 0x8127 0x03 0x05 = some (0x02, 1) ∧ alu 0x8127 0x05 0x03 = some (0xFE, 0) ∧
    alu 0x8127 0x05 0x05 = some (0x00, 0) := by decide
theorem test_shl : alu 0x812E 0x81 0x00 = some (0x02, 1) ∧ alu 0x812E 0x40 0xFF = some (0x80, 0) ∧
    aluF 0x8F0E 0x7F 0 = some 0 := by decide
theorem test_rnd_draw : (State.reset.writeMasked 5 0x0F 0xA7).getV 5 = 0x07 ∧
    (State.reset.writeMasked 5 0xFF 0x3C).getV 5 = 0x3C := by decide
theorem test_rnd_runs : (ran State.reset 0xC50F).map (fun t => (t.draws, t.pc, t.getV 4)) = some (1, 0x202, 0) := by
  decide

theorem test_ld_i : (ran State.reset 0xA22A).map State.i = some 0x22A := by decide
theorem test_add_i : (ran { regs [(2, 1)] with i := 0xFFFF } 0xF21E).map (fun t => (t.i, t.getV VF)) = some (0, 0) ∧
    (ran { regs [(2, 1)] with i := 0x0FFF } 0xF21E).map (fun t => (t.i, t.getV VF)) = some (0x1000, 0) := by decide
theorem test_ld_f : (ran (regs [(0, 0x0A)]) 0xF029).map State.i = some 0x32 ∧
    (ran (regs [(0, 0xFF)]) 0xF029).map State.i = some 0x4FB := by decide

/-- The lit pixels of the rows of a display. -/
def lit (s : State) : List (Nat × Nat) :=
  (List.range 32).flatMap fun y => ((List.range 64).filter fun x => s.pixel x y).map fun x => (x, y)

theorem test_cls : (ran { State.reset with fb := Vector.replicate 32 0xF0 } 0x00E0).map State.fb =
    some State.reset.fb := by decide +kernel
/-- Rows F0, 90 of glyph 0 at (62, 31): wrapped on both axes. -/
theorem test_drw_wraps : (ran (regs [(0, 0x3E), (1, 0x1F)]) 0xD012).map (fun t => (lit t, t.getV VF)) =
    some ([(1, 0), (62, 0), (0, 31), (1, 31), (62, 31), (63, 31)], 0) := by decide +kernel
/-- Glyph 0 drawn on its own first row: that row is unlit again, and VF = 1. -/
theorem test_drw_collides :
    (ran { State.reset with fb := State.reset.fb.set 0 0xF } 0xD002).map (fun t => (lit t, t.getV VF)) =
    some ([(0, 1), (3, 1)], 1) := by decide +kernel

theorem test_skp : (ran { regs [(4, 0x0A)] with keys := 0x400 } 0xE49E).map State.pc = some 0x204 ∧
    (ran { regs [(4, 0x1A)] with keys := 0x400 } 0xE49E).map State.pc = some 0x202 := by decide
theorem test_sknp : (ran { regs [(4, 0x0A)] with keys := 0x400 } 0xE4A1).map State.pc = some 0x202 ∧
    (ran { regs [(4, 0x1A)] with keys := 0x400 } 0xE4A1).map State.pc = some 0x204 := by decide
theorem test_ld_vx_k : (ran (regs [(1, 9)]) 0xF10A).map (fun t => (t.mode, t.pc, t.getV 1)) =
    some (.awaitingKey 1, 0x202, 9) := by decide

theorem test_ld_vx_dt : (ran { State.reset with dt := 0x3C, st := 0x11 } 0xF307).map (fun t => (t.getV 3, t.dt)) =
    some (0x3C, 0x3C) := by decide
theorem test_ld_dt_vx : (ran (regs [(3, 0x3C)]) 0xF315).map (fun t => (t.dt, t.st)) = some (0x3C, 0) := by decide
theorem test_ld_st_vx : (ran (regs [(3, 5)]) 0xF318).map (fun t => (t.st, t.toneOn, t.dt)) = some (5, true, 0) := by
  decide

/-- The bytes at 0x300, 0x301, 0x302. -/
def at300 (s : State) : List Byte := [s.readByte 0x300, s.readByte 0x301, s.readByte 0x302]

theorem test_ld_b : (ran { regs [(0, 0xEA)] with i := 0x300 } 0xF033).map (fun t => (at300 t, t.i)) =
    some ([2, 3, 4], 0x300) := by decide
theorem test_ld_b_edge : (ran { regs [(0, 0xFF)] with i := 0xFFD } 0xF033).map (fun t => t.readByte 0xFFF) = some 5 ∧
    raised { State.reset with i := 0xFFE } 0xF033 = some .outOfBoundsAccess := by decide
theorem test_st_regs : (ran { regs [(0, 0x11), (1, 0x22), (2, 0x33)] with i := 0x300 } 0xF155).map
    (fun t => (at300 t, t.i)) = some ([0x11, 0x22, 0], 0x300) := by decide
theorem test_st_regs_edge : raised { State.reset with i := 0xFF1 } 0xFF55 = some .outOfBoundsAccess ∧
    raised { State.reset with i := 0xFF0 } 0xFF55 = none := by decide
theorem test_ld_regs : (ran (regs [(5, 7)]) 0xF465).map (fun t => t.v.toList.take 6) =
    some [0xF0, 0x90, 0x90, 0x90, 0xF0, 7] := by decide
theorem test_ld_regs_edge : raised { State.reset with i := 0xFF1 } 0xFF65 = some .outOfBoundsAccess ∧
    raised { State.reset with i := 0xFFF } 0xF065 = none := by decide

/-! ### The driver's operations (95_test_vectors.md 2.8, 2.9, 2.11) and the parameters -/

theorem test_key_press : (performed (.keyPress 0xF) { State.reset with mode := .awaitingKey 1 }).getV 1 = 0x0F ∧
    performed (.keyPress 3) { State.reset with mode := .ready } = { State.reset with mode := .ready } := by decide
theorem test_tick : let t := performed .tick { State.reset with dt := 2, st := 1 }
    (t.dt, t.st, t.toneOn) = (1, 0, false) ∧ performed .tick State.reset = State.reset := by decide
theorem test_load : let t := performed (.load [0x60, 0x05]) { State.reset with st := 5, mem := [(0, 1)] }
    (t.mode, t.pc, t.st, t.readByte 0, t.readByte 0x200, t.readByte 0x201) = (.ready, 0x200, 0, 0xF0, 0x60, 0x05) := by
  decide +kernel
theorem test_scheduled_load_runs : next? (step { State.reset with schedule := [.load [0x12, 0x00], .step] }) =
    some { State.reset with schedule := [.step], mode := .ready, mem := [(0x200, 0x12)] } := by decide +kernel
theorem test_error_codes : [none, some .programTooLarge, some .stackOverflow, some .stackUnderflow,
    some .outOfBoundsAccess].map errorCode = [0, 1, 2, 3, 4] := by decide
/-- The constraints that 00_scope.md R6 puts on the parameters. -/
theorem test_parameters : 0x200 ≤ Config.memSize ∧ Config.memSize ≤ 65536 ∧
    Config.fontBase + Config.fontLen ≤ Config.progBase ∧ Config.font.length = Config.fontLen ∧
    Config.fontLen = 16 * Config.glyphStride := by decide
theorem test_reset_memory_canonical : State.reset.mem.wf := by decide

/-! ### Witnesses: for every statement with hypotheses, a state and operands that meet them -/

/-- A ready machine whose next opcode is `w`. -/
def fetching (w : Nat) : State := State.reset.withFetchWord 16 w

/-- Up to sixteen return addresses 0x0202, the stack of scenario S9. -/
theorem stackOk_of {s : State} {n : Nat} (hn : n ≤ 16) (h : s.stack = List.replicate n 0x202) : s.StackOk := by
  refine ⟨by rw [h, List.length_replicate]; exact hn, fun a ha => ?_⟩
  rw [h] at ha
  rw [List.eq_of_mem_replicate ha]
  decide

/-- An image of `n` zero bytes. -/
def blank (n : Nat) : List Byte := List.replicate n 0

theorem length_blank (n : Nat) : (blank n).length = n := List.length_replicate

/-- An image one byte too long (R192). -/
theorem tooLarge_blank : TooLarge (blank 3585) := by
  rw [TooLarge, length_blank]; decide

theorem reported_tooLarge {bytes : List Byte} (h : TooLarge bytes) (s : State) :
    reported (.load bytes) s = some .programTooLarge := by
  simp only [reported, perform, loadCycle, if_pos h, raise, Result.error?]

/-- The next opcode of a ready machine, when the word is stored at 0x200. -/
theorem fetches_of {s : State} {w : Word} (h : s.mode = .ready ∧ s.schedule = [] ∧ s.pc.toNat + 1 < Config.memSize ∧
    opcodeOf (s.readByte s.pc.toNat) (s.readByte (s.pc.toNat + 1)) = w) : s.Fetches w :=
  ⟨h.1, h.2.1, h.2.2.1, h.2.2.2⟩

theorem witness_DecodeOfEncodeIsInstruction : ∃ i : Instr, i.WellFormed := ⟨.drw 15 15 15, by decide⟩
theorem witness_EncodeOfDecodedIsWord : ∃ (w : Word) (i : Instr), decodeWord w = .ok i :=
  ⟨0xFFFF &&& 0xDFFF, .drw 15 15 15, by decide⟩
theorem witness_DecoderSelectsTheMatchingRow : ∃ (w : Word) (m k : Mnemonic), m.Matches w ∧ k.Matches w :=
  ⟨0x8AB7, .SUBN, .SUBN, by decide⟩
theorem witness_StepRunsDecodedInstruction : ∃ (s : State) (i : Instr), s.mode = .ready ∧ s.schedule = [] ∧
    s.pc.toNat + 1 < Config.memSize ∧
    decode [s.readByte s.pc.toNat, s.readByte (s.pc.toNat + 1)] = .ok (i, []) ∧ i.WellFormed :=
  ⟨fetching 0xD125, .drw 1 2 5, by decide⟩
theorem witness_FetchReadsTwoBytesBigEndian : (∃ s : State, s.pc.toNat = 0xFFE) ∧ ∃ s : State, s.pc.toNat = 0xFFF :=
  ⟨⟨{ State.reset with pc := 0xFFE }, by decide⟩, ⟨{ State.reset with pc := 0xFFF }, by decide⟩⟩
theorem witness_UnknownOpcodeOnlyAdvances :
    (∃ (s : State) (w : Word) (e : DecodeError), s.Fetches w ∧ decodeWord w = .error e) ∧
    ∃ s : State, s.mode = .ready ∧ s.schedule = [] ∧ 0xFFE < s.pc.toNat :=
  ⟨⟨fetching 0x5121, 0x5121, .unknownOpcode 0x5121, fetches_of (by decide), by decide⟩,
    { State.reset with mode := .ready, pc := 0xFFF }, by decide⟩
theorem witness_EveryWordExecutes : ∃ (s : State) (w : Word), s.Fetches w :=
  ⟨{ State.reset with mode := .ready, pc := 0xFFE }, 0, fetches_of (by decide)⟩
theorem witness_JumpSetsPc : (∃ w : Word, w &&& 0xF000 = 0x1000) ∧
    (∃ (nnn : Addr) (s : State), s.Fetches (encode (.jp nnn)) ∧ s.pc.toNat = nnn.toNat) ∧
    ∃ (nnn : Addr) (s t : State), nnn = 0xFFF ∧ exec (.jp nnn) s = .next t :=
  ⟨⟨0x1FFF, by decide⟩, ⟨0x200, fetching 0x1200, fetches_of (by decide), by decide⟩, 0xFFF, State.reset, _, rfl, rfl⟩
theorem witness_CallPushesAndJumps : (∃ w : Word, w &&& 0xF000 = 0x2000) ∧ (∃ s : State, s.sp < 16 ∧ s.sp = 15) ∧
    (∃ (targets : List Addr) (s : State), s.sp = 0 ∧ targets.length = 16) ∧
    ∃ (nnn : Addr) (s : State), s.Fetches (encode (.call nnn)) ∧ s.sp = 16 :=
  ⟨⟨0x2FFF, by decide⟩, ⟨{ State.reset with stack := List.replicate 15 0x202 }, by decide⟩,
    ⟨List.replicate 16 0x200, State.reset, by decide⟩, 0x200, { fetching 0x2200 with stack := List.replicate 16 0x202 }, fetches_of (by decide), by decide⟩
theorem witness_ReturnPopsIntoPc :
    (∃ (s t : State) (l : List Word) (a : Word), s.stack = l ++ [a] ∧ exec .ret s = .next t ∧ a = 0xFFF) ∧
    (∃ s : State, s.Fetches 0x00EE ∧ s.sp = 0) ∧
    (∃ (nnn : Addr) (s t : State) (l : List Word) (a : Word), s.Fetches (encode (.call nnn)) ∧ step s = .next t ∧
      t.stack = l ++ [a] ∧ 0xFFE < a.toNat ∧ s.pc = 0xFFE) ∧
    ∃ (nnn : Addr) (s : State), s.Fetches (encode (.call nnn)) ∧ s.sp < 16 :=
  ⟨⟨{ State.reset with stack := [0xFFF] }, _, [], 0xFFF, rfl, rfl, rfl⟩,
    ⟨fetching 0x00EE, fetches_of (by decide), by decide⟩,
    ⟨0x200, State.withFetchWord { State.reset with pc := 0xFFE } 16 0x2200, _, [], 0x1000,
      fetches_of (by decide), rfl, by decide, by decide, by decide⟩,
    0x200, fetching 0x2200, fetches_of (by decide), by decide⟩
theorem witness_ReturnUndoesCall : ∃ (nnn : Addr) (s t u : State), s.sp < 16 ∧ exec (.call nnn) s = .next t ∧
    u.stack = t.stack :=
  ⟨0xFFF, State.reset, _, { State.reset with stack := [0x200] }, by decide, rfl, by decide⟩
theorem witness_SixteenCallsThenOverflow : (∃ s : State, s.sp = 16) ∧ (∃ s : State, 0 < s.sp ∧ s.sp < 16) ∧
    ∃ (targets : List Addr) (s : State), s.sp = 0 ∧ targets.length = 16 :=
  ⟨⟨{ State.reset with stack := List.replicate 16 0x202 }, by decide⟩, ⟨{ State.reset with stack := [0x202] }, by decide⟩,
    List.replicate 16 0x200, State.reset, by decide⟩
theorem witness_ImmediateSkips : (∃ w : Word, w &&& 0xF000 = 0x3000) ∧ (∃ w : Word, w &&& 0xF000 = 0x4000) ∧
    (∃ (x : Reg) (nn : Byte) (s : State), s.Fetches (encode (.seImm x nn)) ∧ s.getV x = nn) ∧
    ∃ (x : Reg) (nn : Byte) (s : State), s.Fetches (encode (.sneImm x nn)) ∧ s.getV x ≠ nn :=
  ⟨⟨0x3FFF, by decide⟩, ⟨0x4FFF, by decide⟩, ⟨15, 0, fetching 0x3F00, fetches_of (by decide), by decide⟩, 15, 0xFF,
    fetching 0x4FFF, fetches_of (by decide), by decide⟩
theorem witness_RegisterSkips : (∃ w : Word, w &&& 0xF00F = 0x5000) ∧ (∃ w : Word, w &&& 0xF00F = 0x9000) ∧
    (∃ w : Word, w &&& 0xF000 = 0x5000 ∧ w &&& 0x000F ≠ 0) ∧ ∃ w : Word, w &&& 0xF000 = 0x9000 ∧ w &&& 0x000F ≠ 0 :=
  ⟨⟨0x5FF0, by decide⟩, ⟨0x9FF0, by decide⟩, ⟨0x5121, by decide⟩, 0x912F, by decide⟩
theorem witness_ImmediateLoadAndAdd : (∃ w : Word, w &&& 0xF000 = 0x6000) ∧ ∃ w : Word, w &&& 0xF000 = 0x7000 :=
  ⟨⟨0x6FFF, by decide⟩, 0x7FFF, by decide⟩
theorem witness_RegisterCopy : ∃ w : Word, w &&& 0xF00F = 0x8000 := ⟨0x8FF0, by decide⟩
theorem witness_AddWritesSumAndCarry : ∃ x : Reg, x ≠ VF := ⟨14, by decide⟩
theorem witness_SubtractionsWriteDifferenceAndFlag : ∃ x : Reg, x ≠ VF := ⟨14, by decide⟩
theorem witness_ShiftsMoveOneBitIntoFlag : ∃ (p : Config.ShiftSrc) (x y : Reg), p = .vy ∧ x ≠ VF ∧ y = VF :=
  ⟨.vy, 0, 15, by decide⟩
theorem witness_RandomIsMasked : (∃ w : Word, w &&& 0xF000 = 0xC000) ∧ (∃ nn : Byte, nn = 0) ∧ ∃ nn : Byte, nn = 0xFF :=
  ⟨⟨0xCFFF, by decide⟩, ⟨0, rfl⟩, 0xFF, rfl⟩
theorem witness_LoadIndexSetsI : ∃ w : Word, w &&& 0xF000 = 0xA000 := ⟨0xAFFF, by decide⟩
theorem witness_ClearUnlightsEveryPixel : ∃ px py, px < Config.displayW ∧ py < Config.displayH := ⟨63, 31, by decide⟩
theorem witness_DrawXorsSpriteAndReportsCollision : (∃ (n : Fin 16) (s : State), n.val = 0 ∧ s.i.toNat = 0x1000) ∧
    (∃ (n : Fin 16) (s : State), n.val ≠ 0 ∧ s.i.toNat + n.val = Config.memSize) ∧
    ∃ (n : Fin 16) (s : State), 0 < n.val ∧ Config.memSize = s.i.toNat + n.val - 1 :=
  ⟨⟨0, { State.reset with i := 0x1000 }, by decide⟩, ⟨3, { State.reset with i := 0xFFD }, by decide⟩, 3,
    { State.reset with i := 0xFFE }, by decide⟩
theorem witness_DrawingTwiceRestoresDisplay : ∃ (x y : Reg) (n : Fin 16) (s t u : State), x ≠ VF ∧ y ≠ VF ∧
    exec (.drw x y n) s = .next t ∧ exec (.drw x y n) t = .next u ∧
    ∀ px py, px < Config.displayW → py < Config.displayH → s.pixel px py = false :=
  ⟨0, 1, 5, State.reset, _, _, by decide, by decide, rfl, rfl, fun px py _ _ => by
    simp [State.pixel, FrameBuffer.pixel, State.reset]⟩
theorem witness_KeySkipsFollowLevels : (∃ (x : Reg) (s : State) (k : Key), (s.getV x).toNat = k.val ∧ k = 15) ∧
    ∃ (x : Reg) (s : State), 15 < (s.getV x).toNat ∧ s.getV x = 16 :=
  ⟨⟨4, regs [(4, 15)], 15, by decide⟩, 4, regs [(4, 16)], by decide⟩
theorem witness_KeyWaitEndsWithNextPress : (∃ w : Word, w &&& 0xF0FF = 0xF00A) ∧
    (∃ (x : Reg) (s : State), s.Fetches (encode (.ldVxK x)) ∧ x = VF) ∧
    ∃ (x : Reg) (s : State), s.mode = .awaitingKey x ∧ x = VF :=
  ⟨⟨0xFF0A, by decide⟩, ⟨15, fetching 0xFF0A, fetches_of (by decide), by decide⟩, 15, { State.reset with mode := .awaitingKey 15 }, by decide⟩
theorem witness_KeyPressWithoutWaitIsDropped : ∃ s : State, s.mode = .ready ∧ ∀ x, s.mode ≠ .awaitingKey x :=
  ⟨{ State.reset with mode := .ready }, by decide⟩
theorem witness_SoundTimerIsWriteOnly : ∃ i : Instr, ∀ x, i ≠ .ldStVx x := ⟨.ldVxDt 3, by decide⟩
theorem witness_OnlyKeySkipsReadLevels : ∃ i : Instr, ∀ x, i ≠ .skp x ∧ i ≠ .sknp x := ⟨.ldVxK 3, by decide⟩
theorem witness_DecimalDigitsStored : (∃ s : State, s.mem.wf ∧ s.i.toNat + 2 < Config.memSize ∧ s.i = 0xFFD) ∧
    ∃ s : State, s.mem.wf ∧ Config.memSize ≤ s.i.toNat + 2 ∧ s.i = 0xFFE :=
  ⟨⟨{ State.reset with i := 0xFFD, mem := [(0xFFF, 9)] }, by decide⟩, { State.reset with i := 0xFFE }, by decide⟩
theorem witness_RegistersStored : (∃ (x : Reg) (s : State), s.mem.wf ∧ s.i.toNat + x.val = Config.memSize - 1) ∧
    ∃ (x : Reg) (s : State), s.mem.wf ∧ s.i.toNat + x.val = Config.memSize :=
  ⟨⟨15, { State.reset with i := 0xFF0, mem := [(0xFFF, 9)] }, by decide⟩, 15, { State.reset with i := 0xFF1 }, by decide⟩
theorem witness_RegistersLoaded : (∃ (x : Reg) (s : State), s.i.toNat + x.val = Config.memSize - 1) ∧
    ∃ (x : Reg) (s : State), s.i.toNat + x.val = Config.memSize :=
  ⟨⟨15, { State.reset with i := 0xFF0 }, by decide⟩, 0, { State.reset with i := 0x1000 }, by decide⟩
theorem witness_DumpThenLoadRestores : ∃ (x : Reg) (s t u : State), s.mem.wf ∧ exec (.stRegs x) s = .next t ∧
    u.mem = t.mem ∧ u.i = t.i ∧ u.v ≠ s.v :=
  ⟨1, { regs [(0, 0x12)] with i := 0xFFE }, _,
    { State.reset with i := 0xFFE, mem := [(0xFFE, 0x12)] }, by decide, rfl, by decide, by decide, by decide⟩
/-- One byte of the opcode stored, at either end of the range; and both. -/
theorem witness_StoreIsSeenByNextFetch :
    (∃ (x : Reg) (s t u : State), s.mem.wf ∧ exec (.ldB x) s = .next t ∧ u.mem = t.mem ∧
      u.pc.toNat + 1 < Config.memSize ∧ u.pc.toNat + 1 = s.i.toNat) ∧
    (∃ (x : Reg) (s t u : State), s.mem.wf ∧ exec (.stRegs x) s = .next t ∧ u.mem = t.mem ∧
      u.pc.toNat + 1 < Config.memSize ∧ u.pc.toNat = s.i.toNat + x.val) ∧
    ∃ (x : Reg) (s t u : State) (r q : Reg), s.mem.wf ∧
    exec (.stRegs x) s = .next t ∧ q.val = r.val + 1 ∧ q.val ≤ x.val ∧ u.mem = t.mem ∧
    u.pc.toNat = s.i.toNat + r.val :=
  ⟨⟨0, { regs [(0, 0xEA)] with i := 0x300 }, _, { State.reset with pc := 0x2FF, mem := [(0x300, 2), (0x301, 3), (0x302, 4)] },
      by decide, rfl, by decide, by decide, by decide⟩,
    ⟨1, { regs [(0, 0x12)] with i := 0xFFD }, _, { State.reset with pc := 0xFFE, mem := [(0xFFD, 0x12)] },
      by decide, rfl, by decide, by decide, by decide⟩,
    1, { regs [(0, 0x12)] with i := 0xFFE }, _,
    { State.reset with pc := 0xFFE, mem := [(0xFFE, 0x12)] }, 0, 1, by decide, rfl, by decide, by decide, by decide,
    by decide⟩
theorem witness_EveryInstructionKeepsItsFrame : ∃ (i : Instr) (s t : State), exec i s = .next t ∧
    storedBytes i = 16 ∧ s.i = 0xFF0 :=
  ⟨.stRegs 15, { State.reset with i := 0xFF0 }, _, rfl, rfl, rfl⟩
theorem witness_ModeTransitions : (∃ s : State, s.mode ≠ .ready ∧ ∀ x, s.mode ≠ .awaitingKey x) ∧
    (∃ (w : Word) (x : Reg) (s : State), s.mode = .ready ∧ fetch s = .ok w ∧ decodeWord w = .ok (.ldVxK x)) ∧
    ∃ (x : Reg) (s : State), s.mode = .awaitingKey x :=
  ⟨⟨State.reset, by decide⟩, ⟨0xF30A, 3, fetching 0xF30A, by decide⟩, 3, { State.reset with mode := .awaitingKey 3 }, rfl⟩
theorem witness_StepRaisesExactlyAsTabulated : (∃ s : State, s.schedule = [] ∧ s.sp ≤ 16 ∧
      step s = .fault .outOfBoundsAccess) ∧
    ∃ (e : Event) (s : State) (f : Fault), e ≠ .step ∧ reported e s = some f :=
  ⟨⟨{ State.reset with mode := .ready, pc := 0xFFF, stack := List.replicate 16 0x202 }, by decide, by decide, rfl⟩,
    .load (blank 3585), State.reset, .programTooLarge, nofun, reported_tooLarge tooLarge_blank _⟩
theorem witness_RaisingStepIsStuckUntilReset : ∃ (s : State) (f : Fault) (events : List Event) (bytes : List Byte),
    reported .step s = some f ∧ (∀ e ∈ events, e.Ordinary) ∧
    events = [.tick, .step, .keyPress 3, .setKeys 8] ∧
    bytes.length = 3584 :=
  ⟨fetching 0x00EE, .stackUnderflow, [.tick, .step, .keyPress 3, .setKeys 8], blank 3584, by decide,
    by simp [Event.Ordinary], rfl, length_blank 3584⟩
theorem witness_LoadRejectsLargeImage : ∃ bytes : List Byte, 3584 < bytes.length ∧ bytes.length = 3585 :=
  ⟨blank 3585, (length_blank 3585).symm ▸ (by decide : 3584 < 3585), length_blank 3585⟩
theorem witness_ResetWritesEveryItem : (∃ a, a < 80 ∧ a = 79) ∧ ∃ a, 80 ≤ a ∧ a = 80 := ⟨⟨79, by decide⟩, 80, by decide⟩
theorem witness_LoadLeavesLaunchState : (∃ bytes : List Byte, 3584 < bytes.length) ∧
    (∃ bytes : List Byte, bytes.length ≤ 3584 ∧ bytes.length = 3584) ∧
    ∃ (bytes : List Byte) (k a : Nat), bytes.length ≤ 3584 ∧ k < bytes.length ∧ 0x200 + bytes.length ≤ a :=
  ⟨⟨blank 3585, (length_blank 3585).symm ▸ (by decide : 3584 < 3585)⟩, ⟨blank 3584, Nat.le_of_eq (length_blank 3584), length_blank 3584⟩,
    [0x12, 0x00], 1, 0x202, by decide⟩
theorem witness_StepKeepsInvariant : ∃ s t : State, s.Inv ∧ step s = .next t ∧ s.mode = .ready ∧ s.sp = 15 :=
  ⟨{ fetching 0x2200 with stack := List.replicate 15 0x202 }, _,
    ⟨by decide, stackOk_of (n := 15) (by decide) rfl, by decide, fun h => absurd h (by decide)⟩, rfl, rfl, rfl⟩
theorem witness_EveryDriverSequenceKeepsInvariant : ∃ s : State, s.Inv ∧ s.mode = .halted :=
  ⟨State.reset, ⟨by decide, stackOk_of (n := 0) (by decide) rfl, by decide, fun _ => by decide +kernel⟩, rfl⟩

end Sys2Proof.Tests
end

section
/-! PROOFS. The statements of 10_state.md: the call stack (R34 to R36) and the sound timer (R29). -/

namespace Sys2Proof.Machine

/-! ### The call stack: what a push, a pop and a call do below and at their bounds -/

/-- A push with room on the stack adds its word above the old entries and changes nothing else (R36). -/
theorem push_adds_entry {s : State} (h : s.sp < 16) (a : Word) : ∃ t, s.push a = .ok t ∧ t.sp = s.sp + 1 ∧
    t.stack[s.sp]? = some a ∧ (∀ j, j < s.sp → t.stack[j]? = s.stack[j]?) ∧ { t with stack := s.stack } = s :=
  ⟨{ s with stack := s.stack ++ [a] }, push_ok.2 ⟨h, rfl⟩, List.length_append, List.getElem?_concat_length,
    fun _ hj => List.getElem?_append_left hj, rfl⟩

/-- A stack that is not empty has a newest entry above the others (R35). -/
theorem stack_eq_concat {s : State} (h : 0 < s.sp) : ∃ l a, s.stack = l ++ [a] :=
  ⟨_, _, (List.dropLast_concat_getLast (List.ne_nil_of_length_pos h)).symm⟩

/-- A pop of a stack that is not empty gives the newest entry, keeps those below it and changes nothing else (R36). -/
theorem pop_removes_entry {s : State} (h : 0 < s.sp) : ∃ a t, s.pop = .ok (a, t) ∧ t.sp = s.sp - 1 ∧
    s.stack[t.sp]? = some a ∧ (∀ j, j < t.sp → t.stack[j]? = s.stack[j]?) ∧ { t with stack := s.stack } = s := by
  obtain ⟨l, a, hl⟩ := stack_eq_concat h
  refine ⟨a, { s with stack := l }, pop_ok.2 ⟨l, hl, rfl⟩, ?_, ?_, fun j hj => ?_, rfl⟩
  · simp [State.sp, hl]
  · simp [State.sp, hl]
  · rw [hl]
    exact (List.getElem?_append_left hj).symm

/-- CALL with room on the stack pushes PC and jumps (R102). -/
theorem exec_call_next {s : State} (h : s.sp < 16) (nnn : Addr) :
    exec (.call nnn) s = .next { s with stack := s.stack ++ [s.pc], pc := nnn.setWidth 16 } := by
  have hpush : s.push s.pc = .ok { s with stack := s.stack ++ [s.pc] } := push_ok.2 ⟨h, rfl⟩
  rw [exec, execCall, hpush]
  rfl

/-- CALL with a full stack raises `StackOverflow` (R102). -/
theorem exec_call_fault {s : State} (h : 16 ≤ s.sp) (nnn : Addr) : exec (.call nnn) s = .fault .stackOverflow := by
  have hpush : s.push s.pc = .error .stackOverflow := push_error.2 ⟨h, rfl⟩
  rw [exec, execCall, hpush]
  rfl

/-- CALL with room on the stack adds one entry (R102). -/
theorem exec_call_sp {s : State} (h : s.sp < 16) (nnn : Addr) :
    ∃ u, exec (.call nnn) s = .next u ∧ u.sp = s.sp + 1 :=
  ⟨_, exec_call_next h nnn, List.length_append⟩

/-- As many calls as the stack has room for succeed, and each leaves one entry (R36). -/
theorem execAll_calls (targets : List Addr) {s : State} (h : s.sp + targets.length ≤ 16) :
    ∃ t, execAll (targets.map .call) s = .next t ∧ t.sp = s.sp + targets.length := by
  induction targets generalizing s with
  | nil => exact ⟨s, rfl, rfl⟩
  | cons nnn targets ih =>
    rw [List.length_cons] at h
    obtain ⟨u, hu, husp⟩ := exec_call_sp (s := s) (by omega) nnn
    obtain ⟨t, ht, htsp⟩ := ih (s := u) (by omega)
    refine ⟨t, ?_, by rw [htsp, husp, List.length_cons]; omega⟩
    rw [List.map_cons, execAll, hu]
    exact ht

/-- Settles O15: push and pop at and below their bounds, and sixteen calls by induction on the calls. -/
theorem sixteenCallsThenOverflow : Obligations.SixteenCallsThenOverflow := by
  refine ⟨fun s a h => push_error.2 ⟨Nat.le_of_eq h.symm, rfl⟩, fun s a h => push_adds_entry h a,
    fun s h => pop_error.2 ⟨h, rfl⟩, fun s h => pop_removes_entry h, fun targets s hs hlen => ?_⟩
  obtain ⟨t, ht, hsp⟩ := execAll_calls targets (s := s) (by omega)
  have hfull : t.sp = 16 := by omega
  exact ⟨t, ht, hfull, exec_call_fault (Nat.le_of_eq hfull.symm)⟩

/-! ### The sound timer: who writes it -/

/-- `Load` leaves the sound timer 0, whether or not the image fits (R238, R239). -/
@[simp] theorem loadState_st (s : State) (bytes : List Byte) : (s.loadState bytes).st = 0 := by
  unfold State.loadState
  split <;> rfl

/-- A key press leaves the sound timer alone, whether or not one is awaited (R198). -/
@[simp] theorem keyPress_st (s : State) (k : Key) : (s.keyPress k).st = s.st := by
  unfold State.keyPress
  split <;> rfl

/-! ### The sound timer: no instruction reads it -/

/-- A change to the state that a body commits is a change to its next state. -/
theorem commit_map (f : State → State) (r : Except Fault State) : commit (r.map f) = Result.onNext f (commit r) := by
  cases r <;> rfl

/-- A change to the state that an accessing instruction answers is a change to its next state: the check of the range
does not depend on it. -/
theorem accessing_onNext {f : State → State} {base count : Nat} {t u : State} (h : u = f t) :
    accessing base count u = Result.onNext f (accessing base count t) := by
  unfold accessing
  split
  · exact congrArg Host.Outcome.next h
  · rfl

/-- The state with another value in the sound timer. -/
def State.setSt (s : State) (b : Byte) : State := { s with st := b }

section setSt
variable (s : State) (b : Byte)

@[simp] theorem setSt_pc : (s.setSt b).pc = s.pc := rfl
@[simp] theorem setSt_stack : (s.setSt b).stack = s.stack := rfl
@[simp] theorem setSt_sp : (s.setSt b).sp = s.sp := rfl

theorem skipIf_setSt (c : Bool) : (s.setSt b).skipIf c = (s.skipIf c).setSt b := by
  cases c <;> rfl

theorem push_setSt (a : Word) : (s.setSt b).push a = (s.push a).map (·.setSt b) := by
  unfold State.push
  rw [setSt_sp]
  split <;> rfl

theorem pop_setSt : (s.setSt b).pop = s.pop.map fun p => (p.1, p.2.setSt b) := by
  unfold State.pop
  rw [setSt_stack]
  cases s.stack.getLast? <;> rfl

theorem loadRegisters_setSt (base n : Nat) :
    (s.setSt b).loadRegisters base n = (s.loadRegisters base n).setSt b := by
  induction n with
  | zero => rfl
  | succ k ih => rw [State.loadRegisters, ih]; rfl

theorem execRet_setSt : execRet (s.setSt b) = Result.onNext (·.setSt b) (execRet s) := by
  unfold execRet
  rw [pop_setSt, ← commit_map]
  cases s.pop <;> rfl

theorem execCall_setSt (nnn : Addr) :
    execCall nnn (s.setSt b) = Result.onNext (·.setSt b) (execCall nnn s) := by
  unfold execCall
  rw [setSt_pc, push_setSt, ← commit_map]
  cases s.push s.pc <;> rfl

/-- An instruction other than FX18, run with another value in the sound timer, answers the same but for that value (R29).
The bodies that branch or loop do so on something else, by the lemmas above; the others only write fields. -/
theorem exec_setSt (i : Instr) (h : ∀ x, i ≠ .ldStVx x) :
    exec i (s.setSt b) = Result.onNext (·.setSt b) (exec i s) := by
  cases i with
  | ldStVx x => exact absurd rfl (h x)
  | ret => exact execRet_setSt s b
  | call nnn => exact execCall_setSt s b nnn
  | seImm | sneImm | seReg | sneReg | skp | sknp => exact congrArg Host.Outcome.next (skipIf_setSt s b _)
  | drw | ldB | stRegs => exact accessing_onNext rfl
  | ldRegs => exact accessing_onNext (loadRegisters_setSt s b _ _)
  | _ => rfl
end setSt

/-- Settles O36: the writers of the sound timer event by event, and its readers instruction by instruction. -/
theorem soundTimerIsWriteOnly : Obligations.SoundTimerIsWriteOnly :=
  ⟨rfl, rfl, fun _ => bne_iff_ne, fun s => ⟨resetOp_st s, loadState_st s⟩, fun s => countDown_toNat s.st,
    fun k _ s => ⟨keyPress_st s k, rfl⟩, fun _ _ _ => rfl, fun i s b h => exec_setSt s b i h⟩

end Sys2Proof.Machine
end

section
/-! PROOFS. The statements of 40_step_cycle.md on the fetch (R91) and on unknown opcodes (R95). -/

namespace Sys2Proof.Machine

/-! ### The fetch -/

/-- The bound of R91 in both of its forms: PC at most 0xFFE, or both bytes of the opcode inside memory. -/
theorem pc_le_iff_fetchable (s : State) : s.pc.toNat ≤ 0xFFE ↔ s.pc.toNat + 1 < Config.memSize :=
  Nat.lt_succ_iff.symm.trans Nat.succ_lt_succ_iff.symm

/-- Where both bytes are in memory, the fetch is the opcode they form (R91). -/
theorem fetch_eq_ok {s : State} (h : s.pc.toNat ≤ 0xFFE) :
    fetch s = .ok (opcodeOf (s.readByte s.pc.toNat) (s.readByte (s.pc.toNat + 1))) :=
  fetch_ok.2 ⟨(pc_le_iff_fetchable s).1 h, rfl⟩

/-- With PC above 0xFFE the fetch raises (R91). -/
theorem fetch_eq_error {s : State} (h : 0xFFE < s.pc.toNat) : fetch s = .error .outOfBoundsAccess :=
  fetch_error.2 ⟨Nat.succ_le_succ h, rfl⟩

/-- Settles O8: the fetch on either side of its bound, and its word as a number. -/
theorem fetchReadsTwoBytesBigEndian : Obligations.FetchReadsTwoBytesBigEndian := fun s =>
  ⟨fun h => ⟨_, fetch_eq_ok h, opcodeOf_toNat _ _⟩, fetch_eq_error, pc_le_iff_fetchable s⟩

/-! ### The step of a ready machine, by what it fetches -/

/-- A step whose fetch raises answers that fault (R90, R94). -/
theorem step_of_fetch_error {s : State} {f : Fault} (hmode : s.mode = .ready) (hsched : s.schedule = [])
    (hfetch : fetch s = .error f) : step s = .fault f := by
  rw [step_nil hsched, stepCycle_ready hmode, hfetch]

/-- A step that fetches `w` executes `w` (R90). -/
theorem step_of_fetches {s : State} {w : Word} (h : s.Fetches w) : step s = executeWord w s := by
  obtain ⟨hmode, hsched, hbound, hword⟩ := h
  have hfetch : fetch s = .ok w := fetch_ok.2 ⟨hbound, hword⟩
  rw [step_nil hsched, stepCycle, hmode, hfetch]

/-- Executing an unknown word advances PC and does nothing else (R92, R95). -/
theorem executeWord_of_unknown {w : Word} {e : DecodeError} (h : decodeWord w = .error e) (s : State) :
    executeWord w s = .next s.advance := by
  rw [executeWord, h, execUnknown]

/-- Settles O9: the step goes through execution of an unknown word, or through the fault of its fetch; the two named
words are run through the decoder. -/
theorem unknownOpcodeOnlyAdvances : Obligations.UnknownOpcodeOnlyAdvances := by
  refine ⟨fun s w e hfetches hunknown => ?_, fun s hmode hsched hpc => ?_, by decide, by decide⟩
  · exact (step_of_fetches hfetches).trans (executeWord_of_unknown hunknown s)
  · exact step_of_fetch_error hmode hsched (fetch_eq_error hpc)

end Sys2Proof.Machine
end

section
/-! PROOFS. The statements of 41_control_flow.md: 1NNN (R101), 2NNN (R102) and 00EE (R100). -/

namespace Sys2Proof.Machine

/-! ### Decoding by family -/

/-- The mask 0xF000 keeps the family nibble (R72, R75). -/
@[simp] theorem family_and_mask (w : Word) : family (w &&& 0xF000) = family w := by
  rw [family, BitVec.extractLsb'_and]
  exact BitVec.and_allOnes

/-- A word's family can be read from its bits under the mask 0xF000 (R75). -/
theorem family_of_masked {w m : Word} (h : w &&& 0xF000 = m) : family w = family m := by
  rw [← h, family_and_mask]

/-- The decoder answers the instruction that the opcode map gives. -/
theorem decodeWord_of_decodeOpcode {w : Word} {i : Instr} (h : decodeOpcode w = some i) : decodeWord w = .ok i := by
  rw [decodeWord, h]

/-- Every word of family 1 is a jump to its address field (R75). -/
theorem decodeWord_jp {w : Word} (h : family w = 1#4) : decodeWord w = .ok (.jp (fieldNNN w)) := by
  exact decodeWord_of_decodeOpcode (by simp only [decodeOpcode, h])

/-- Every word of family 2 is a call of its address field (R75). -/
theorem decodeWord_call {w : Word} (h : family w = 2#4) : decodeWord w = .ok (.call (fieldNNN w)) := by
  exact decodeWord_of_decodeOpcode (by simp only [decodeOpcode, h])

/-- An encoded jump decodes to itself. -/
theorem decodeWord_encode_jp (nnn : Addr) : decodeWord (encode (.jp nnn)) = .ok (.jp nnn) := by
  rw [encode, decodeWord_jp (family_encodeNNN 1 nnn), fieldNNN_encodeNNN]

/-- An encoded call decodes to itself. -/
theorem decodeWord_encode_call (nnn : Addr) : decodeWord (encode (.call nnn)) = .ok (.call nnn) := by
  rw [encode, decodeWord_call (family_encodeNNN 2 nnn), fieldNNN_encodeNNN]

/-! ### The step that fetches a known instruction, and what a raising step leaves -/

/-- A step that fetches the word of an instruction runs its body with PC advanced (R90, R92). -/
theorem step_of_fetches_known {s : State} {w : Word} {i : Instr} (h : s.Fetches w) (hw : decodeWord w = .ok i) :
    step s = exec i s.advance := by
  rw [step_of_fetches h, executeWord, hw]

/-- A `Step()` that raises writes nothing and reports its error (R202, R191). -/
theorem raising_step_writes_nothing {s : State} {f : Fault} (hsched : s.schedule = []) (h : step s = .fault f) :
    performed .step s = s ∧ reported .step s = some f := by
  have hperform : perform .step s = .fault f := (step_nil hsched).symm.trans h
  simp only [performed, reported, hperform, Result.error?, and_self]

/-- The fetch raises exactly where PC is above 0xFFE (R91). -/
theorem fetch_raises_iff {s : State} : fetch s = .error .outOfBoundsAccess ↔ 0xFFE < s.pc.toNat := by
  rw [fetch_error, and_iff_left rfl, memSize_eq]
  exact Nat.succ_le_succ_iff

/-! ### 1NNN -/

/-- 1NNN sets PC to NNN and changes nothing else (R101). -/
theorem exec_jp (nnn : Addr) (s : State) : exec (.jp nnn) s = .next { s with pc := nnn.setWidth 16 } := rfl

/-- An address keeps its value when it is extended to the width of PC (R74). -/
theorem toNat_setWidth_addr (nnn : Addr) : (nnn.setWidth 16).toNat = nnn.toNat :=
  BitVec.toNat_setWidth_of_le (by decide)

/-- Only the last address is above 0xFFE. -/
theorem addr_above_iff (nnn : Addr) : 0xFFE < nnn.toNat ↔ nnn = 0xFFF := by
  bv_omega

/-- Settles O11: a jump to its own address leaves the state with the PC it had; the fetch after a jump raises exactly
where the target is above 0xFFE. -/
theorem jumpSetsPc : Obligations.JumpSetsPc := by
  refine ⟨fun w h => decodeWord_jp (family_of_masked h), exec_jp, fun nnn s hfetches hpc => ?_,
    fun nnn s t ht => ?_⟩
  · have hself : nnn.setWidth 16 = s.pc := BitVec.eq_of_toNat_eq ((toNat_setWidth_addr nnn).trans hpc.symm)
    rw [step_of_fetches_known hfetches (decodeWord_encode_jp nnn), exec_jp, hself]
    rfl
  · cases (exec_jp nnn s).symm.trans ht
    rw [fetch_raises_iff, toNat_setWidth_addr, addr_above_iff]

/-! ### 2NNN -/

/-- The step that fetches a call runs it with the address after the call in PC (R92, R102). -/
theorem step_of_fetches_call {s : State} {nnn : Addr} (h : s.Fetches (encode (.call nnn))) :
    step s = exec (.call nnn) s.advance :=
  step_of_fetches_known h (decodeWord_encode_call nnn)

/-- The step of a fetched call with room on the stack (R92, R102). -/
theorem step_call_next {s : State} {nnn : Addr} (h : s.Fetches (encode (.call nnn))) (hroom : s.sp < 16) :
    step s = .next { s with stack := s.stack ++ [s.pc + 2], pc := nnn.setWidth 16 } :=
  (step_of_fetches_call h).trans (exec_call_next (s := s.advance) hroom nnn)

/-- The step of a fetched call with a full stack (R102). -/
theorem step_call_fault {s : State} {nnn : Addr} (h : s.Fetches (encode (.call nnn))) (hfull : 16 ≤ s.sp) :
    step s = .fault .stackOverflow :=
  (step_of_fetches_call h).trans (exec_call_fault (s := s.advance) hfull nnn)

/-- Settles O12: the call with room and with a full stack, and the sixteen nested calls of R36. -/
theorem callPushesAndJumps : Obligations.CallPushesAndJumps := by
  obtain ⟨-, -, -, -, hsixteen⟩ := sixteenCallsThenOverflow
  refine ⟨fun w h => decodeWord_call (family_of_masked h), fun nnn s h => exec_call_next h nnn,
    fun nnn s h => exec_call_fault h.ge nnn, fun nnn s hfetches hfull => ?_, hsixteen⟩
  exact raising_step_writes_nothing hfetches.unscheduled (step_call_fault hfetches hfull.ge)

/-! ### 00EE -/

/-- RET moves the newest entry into PC (R100). -/
theorem exec_ret_next {s : State} {l : List Word} {a : Word} (h : s.stack = l ++ [a]) :
    exec .ret s = .next { s with stack := l, pc := a } := by
  have hpop : s.pop = .ok (a, { s with stack := l }) := pop_ok.2 ⟨l, h, rfl⟩
  rw [exec, execRet, hpop]
  rfl

/-- RET with an empty stack raises `StackUnderflow` (R100). -/
theorem exec_ret_fault {s : State} (h : s.sp = 0) : exec .ret s = .fault .stackUnderflow := by
  have hpop : s.pop = .error .stackUnderflow := pop_error.2 ⟨h, rfl⟩
  rw [exec, execRet, hpop]
  rfl

/-- 0x00EE is RET (R75). -/
theorem decodeWord_ret : decodeWord 0x00EE = .ok .ret := by decide

/-- What a fetched call leaves on top of the stack is the address after it (R102). -/
theorem step_call_pushes {s t : State} {nnn : Addr} {l : List Word} {a : Word}
    (h : s.Fetches (encode (.call nnn))) (ht : step s = .next t) (hl : t.stack = l ++ [a]) : a = s.pc + 2 := by
  rcases Nat.lt_or_ge s.sp 16 with hroom | hfull
  · cases (step_call_next h hroom).symm.trans ht
    exact (List.singleton_inj.1 (List.append_inj_right' hl rfl)).symm
  · cases (step_call_fault h hfull).symm.trans ht

/-- Of the addresses after a fetchable one, two are not fetchable (R91, R100). -/
theorem unfetchable_after_call {pc : Word} (hpc : pc.toNat + 1 < 4096) (h : 0xFFE < (pc + 2).toNat) :
    (pc + 2 = 0x0FFF ∧ pc = 0xFFD) ∨ (pc + 2 = 0x1000 ∧ pc = 0xFFE) := by
  bv_omega

/-- Settles O13: the return with an entry and with none; the fetch after it, by the entry; and the entry that a
fetched call pushes. -/
theorem returnPopsIntoPc : Obligations.ReturnPopsIntoPc := by
  refine ⟨decodeWord_ret, fun s l a h => exec_ret_next h, fun s h => exec_ret_fault h,
    fun s hfetches hempty => ?_, fun s t l a h ht => ?_, fun nnn s t l a hfetches ht hl ha => ?_,
    fun nnn s hfetches hroom => ⟨_, step_call_next hfetches hroom, exec_ret_next rfl⟩⟩
  · have hstep : step s = .fault .stackUnderflow :=
      (step_of_fetches_known hfetches decodeWord_ret).trans (exec_ret_fault (s := s.advance) hempty)
    exact raising_step_writes_nothing hfetches.unscheduled hstep
  · cases (exec_ret_next h).symm.trans ht
    exact fetch_raises_iff
  · obtain rfl := step_call_pushes hfetches ht hl
    exact unfetchable_after_call hfetches.inside ha

end Sys2Proof.Machine
end

section
/-! PROOFS. The statements of 42_skips.md: 3XNN and 4XNN (R110, R111), 5XY0 and 9XY0 (R112, R113). -/

namespace Sys2Proof.Machine

/-! ### Decoding by family and low nibble -/

/-- The mask 0xF00F keeps the family nibble (R72, R75). -/
@[simp] theorem family_and_maskXY (w : Word) : family (w &&& 0xF00F) = family w := by
  rw [family, BitVec.extractLsb'_and]
  exact BitVec.and_allOnes

/-- The mask 0xF00F keeps the sub-opcode (R73, R75). -/
@[simp] theorem subOpcode_and_maskXY (w : Word) : subOpcode (w &&& 0xF00F) = subOpcode w := by
  rw [subOpcode, BitVec.extractLsb'_and]
  exact BitVec.and_allOnes

/-- A word's family can be read from its bits under the mask 0xF00F (R75). -/
theorem family_of_maskedXY {w m : Word} (h : w &&& 0xF00F = m) : family w = family m := by
  rw [← h, family_and_maskXY]

/-- A word's sub-opcode can be read from its bits under the mask 0xF00F (R75). -/
theorem subOpcode_of_maskedXY {w m : Word} (h : w &&& 0xF00F = m) : subOpcode w = subOpcode m := by
  rw [← h, subOpcode_and_maskXY]

/-- The bits under the mask 0x000F are the sub-opcode (R73). -/
theorem toNat_and_lowNibble (w : Word) : (w &&& 0x000F).toNat = (subOpcode w).toNat := by
  rw [BitVec.toNat_and, subOpcode, BitVec.extractLsb'_toNat]
  exact Nat.and_two_pow_sub_one_eq_mod w.toNat 4

/-- A word with a bit among its bits 3:0 has a sub-opcode that is not zero (R73). -/
theorem subOpcode_ne_zero {w : Word} (h : w &&& 0x000F ≠ 0) : subOpcode w ≠ 0#4 := by
  intro hzero
  have hnat : (w &&& 0x000F).toNat = 0 := by rw [toNat_and_lowNibble, hzero]; rfl
  exact h (BitVec.eq_of_toNat_eq hnat)

/-- The decoder names a word that the opcode map does not have (R77). -/
theorem decodeWord_of_decodeOpcode_none {w : Word} (h : decodeOpcode w = none) :
    decodeWord w = .error (.unknownOpcode w) := by
  rw [decodeWord, h]

/-- Every word of family 3 is a skip on equality with its immediate (R75). -/
theorem decodeWord_seImm {w : Word} (h : family w = 3#4) : decodeWord w = .ok (.seImm (fieldX w) (fieldNN w)) :=
  decodeWord_of_decodeOpcode (by simp only [decodeOpcode, h])

/-- Every word of family 4 is a skip on difference from its immediate (R75). -/
theorem decodeWord_sneImm {w : Word} (h : family w = 4#4) : decodeWord w = .ok (.sneImm (fieldX w) (fieldNN w)) :=
  decodeWord_of_decodeOpcode (by simp only [decodeOpcode, h])

/-- A word of family 5 with sub-opcode 0 is a skip on equality of two registers (R75). -/
theorem decodeWord_seReg {w : Word} (hf : family w = 5#4) (hsub : subOpcode w = 0#4) :
    decodeWord w = .ok (.seReg (fieldX w) (fieldY w)) :=
  decodeWord_of_decodeOpcode (by simp only [decodeOpcode, hf, if_pos hsub])

/-- A word of family 9 with sub-opcode 0 is a skip on difference of two registers (R75). -/
theorem decodeWord_sneReg {w : Word} (hf : family w = 9#4) (hsub : subOpcode w = 0#4) :
    decodeWord w = .ok (.sneReg (fieldX w) (fieldY w)) :=
  decodeWord_of_decodeOpcode (by simp only [decodeOpcode, hf, if_pos hsub])

/-- A word of family 5 or 9 with another sub-opcode is unknown (R77). -/
theorem decodeWord_regSkip_unknown {w : Word} (hf : family w = 5#4 ∨ family w = 9#4) (hsub : subOpcode w ≠ 0#4) :
    decodeWord w = .error (.unknownOpcode w) := by
  apply decodeWord_of_decodeOpcode_none
  rcases hf with hf | hf <;> simp only [decodeOpcode, hf, if_neg hsub]

/-- An encoded 3XNN decodes to itself. -/
theorem decodeWord_encode_seImm (x : Reg) (nn : Byte) : decodeWord (encode (.seImm x nn)) = .ok (.seImm x nn) := by
  rw [encode, decodeWord_seImm (family_encodeXNN 3 x nn), fieldX_encodeXNN, fieldNN_encodeXNN]

/-- An encoded 4XNN decodes to itself. -/
theorem decodeWord_encode_sneImm (x : Reg) (nn : Byte) : decodeWord (encode (.sneImm x nn)) = .ok (.sneImm x nn) := by
  rw [encode, decodeWord_sneImm (family_encodeXNN 4 x nn), fieldX_encodeXNN, fieldNN_encodeXNN]

/-! ### The skip -/

/-- A skip writes PC alone: 2 more where the condition holds (R110). -/
theorem skipIf_eq (s : State) (c : Bool) : s.skipIf c = { s with pc := if c then s.pc + 2 else s.pc } := by
  cases c <;> rfl

/-- A skip on equality of two bytes (R110, R112). -/
theorem skipIf_beq (s : State) (a b : Byte) :
    s.skipIf (a == b) = { s with pc := if a = b then s.pc + 2 else s.pc } := by
  simp only [skipIf_eq, beq_iff_eq]

/-- A skip on difference of two bytes (R111, R113). -/
theorem skipIf_bne (s : State) (a b : Byte) :
    s.skipIf (a != b) = { s with pc := if a = b then s.pc else s.pc + 2 } := by
  simp only [skipIf_eq, bne_iff_ne, ite_not]

/-- The advance of the step and a skip together add 4 to PC (R92, R110). -/
theorem add_two_add_two (p : Word) : p + 2 + 2 = p + 4 := BitVec.add_assoc p 2 2

/-! ### 3XNN and 4XNN -/

/-- 3XNN skips exactly when VX = NN, and changes nothing else (R110). -/
theorem exec_seImm (x : Reg) (nn : Byte) (s : State) :
    exec (.seImm x nn) s = .next { s with pc := if s.getV x = nn then s.pc + 2 else s.pc } :=
  congrArg Host.Outcome.next (skipIf_beq s (s.getV x) nn)

/-- 4XNN skips exactly when VX is not NN, and changes nothing else (R111). -/
theorem exec_sneImm (x : Reg) (nn : Byte) (s : State) :
    exec (.sneImm x nn) s = .next { s with pc := if s.getV x = nn then s.pc else s.pc + 2 } :=
  congrArg Host.Outcome.next (skipIf_bne s (s.getV x) nn)

/-- Settles O17: the two bodies as skips on opposite conditions, and each step as its body with PC advanced. -/
theorem immediateSkips : Obligations.ImmediateSkips := by
  refine ⟨fun w h => decodeWord_seImm (family_of_masked h), fun w h => decodeWord_sneImm (family_of_masked h),
    fun x nn s => ⟨exec_seImm x nn s, exec_sneImm x nn s⟩, fun x nn s h => ?_, fun x nn s h => ?_⟩
  · rw [step_of_fetches_known h (decodeWord_encode_seImm x nn), exec_seImm, advance_getV, advance_pc,
      add_two_add_two]
    rfl
  · rw [step_of_fetches_known h (decodeWord_encode_sneImm x nn), exec_sneImm, advance_getV, advance_pc,
      add_two_add_two]
    rfl

/-! ### 5XY0 and 9XY0 -/

/-- 5XY0 skips exactly when VX = VY, and changes nothing else (R112). -/
theorem exec_seReg (x y : Reg) (s : State) :
    exec (.seReg x y) s = .next { s with pc := if s.getV x = s.getV y then s.pc + 2 else s.pc } :=
  congrArg Host.Outcome.next (skipIf_beq s (s.getV x) (s.getV y))

/-- 9XY0 skips exactly when VX is not VY, and changes nothing else (R113). -/
theorem exec_sneReg (x y : Reg) (s : State) :
    exec (.sneReg x y) s = .next { s with pc := if s.getV x = s.getV y then s.pc else s.pc + 2 } :=
  congrArg Host.Outcome.next (skipIf_bne s (s.getV x) (s.getV y))

/-- Settles O18: the decoder by family and low nibble; the two bodies as skips on opposite conditions, which X = Y
decides. -/
theorem registerSkips : Obligations.RegisterSkips := by
  refine ⟨fun w h => decodeWord_seReg (family_of_maskedXY h) (subOpcode_of_maskedXY h),
    fun w h => decodeWord_sneReg (family_of_maskedXY h) (subOpcode_of_maskedXY h),
    fun w h hlow => decodeWord_regSkip_unknown (h.imp family_of_masked family_of_masked) (subOpcode_ne_zero hlow),
    fun x y s => ⟨exec_seReg x y s, exec_sneReg x y s⟩, fun x s => ⟨?_, ?_⟩⟩
  · rw [exec_seReg, if_pos rfl]
  · rw [exec_sneReg, if_pos rfl]

end Sys2Proof.Machine
end

section
/-! PROOFS. The statements of 43_alu.md: 6XNN (R121), 7XNN (R122) and 8XY0 (R123). -/

namespace Sys2Proof.Machine

/-! ### Decoding -/

/-- Every word of family 6 is a load of its immediate (R75). -/
theorem decodeWord_ldImm {w : Word} (h : family w = 6#4) : decodeWord w = .ok (.ldImm (fieldX w) (fieldNN w)) :=
  decodeWord_of_decodeOpcode (by simp only [decodeOpcode, h])

/-- Every word of family 7 is an addition of its immediate (R75). -/
theorem decodeWord_addImm {w : Word} (h : family w = 7#4) : decodeWord w = .ok (.addImm (fieldX w) (fieldNN w)) :=
  decodeWord_of_decodeOpcode (by simp only [decodeOpcode, h])

/-- A word of family 8 is what the sub-opcode selects (R73). -/
theorem decodeOpcode_family8 {w : Word} (h : family w = 8#4) : decodeOpcode w = decodeFamily8 w := by
  simp only [decodeOpcode, h]

/-- A word of family 8 with sub-opcode 0 is a register copy (R75). -/
theorem decodeWord_ldReg {w : Word} (hf : family w = 8#4) (hsub : subOpcode w = 0#4) :
    decodeWord w = .ok (.ldReg (fieldX w) (fieldY w)) :=
  decodeWord_of_decodeOpcode ((decodeOpcode_family8 hf).trans (by simp only [decodeFamily8, hsub]))

/-! ### The write of one register -/

/-- A register write changes that register alone (R21). -/
theorem onlyRegisters_setV (s : State) (x : Reg) (b : Byte) : OnlyRegisters [x] s (s.setV x b) := by
  have hregs : SameRegistersBut [x] s (s.setV x b) :=
    fun _ hr => getV_setV_other s x b (List.ne_of_not_mem_cons hr)
  have hspecials : SameSpecials s (s.setV x b) := ⟨rfl, rfl, rfl, rfl, rfl, rfl, rfl, rfl, rfl⟩
  exact ⟨hregs, hspecials, setV_readByte s x b, setV_pc s x b⟩

/-- 6XNN writes NN to VX (R121). -/
theorem exec_ldImm (x : Reg) (nn : Byte) (s : State) : exec (.ldImm x nn) s = .next (s.setV x nn) := rfl

/-- 7XNN writes the sum of VX and NN, as bytes, to VX (R122). -/
theorem exec_addImm (x : Reg) (nn : Byte) (s : State) :
    exec (.addImm x nn) s = .next (s.setV x (s.getV x + nn)) := rfl

/-- 8XY0 writes VY to VX (R123). -/
theorem exec_ldReg (x y : Reg) (s : State) : exec (.ldReg x y) s = .next (s.setV x (s.getV y)) := rfl

/-- Settles O19: each body is one register write; the sum of two bytes is their sum modulo 256. -/
theorem immediateLoadAndAdd : Obligations.ImmediateLoadAndAdd := by
  refine ⟨fun w h => decodeWord_ldImm (family_of_masked h), fun w h => decodeWord_addImm (family_of_masked h),
    fun x nn s => ⟨_, exec_ldImm x nn s, getV_setV_same s x nn, onlyRegisters_setV s x nn⟩,
    fun x nn s => ⟨_, exec_addImm x nn s, ?_, onlyRegisters_setV s x (s.getV x + nn)⟩⟩
  rw [getV_setV_same]
  exact BitVec.toNat_add (s.getV x) nn

/-- Settles O20: the body is one register write. -/
theorem registerCopy : Obligations.RegisterCopy :=
  ⟨fun _ h => decodeWord_ldReg (family_of_maskedXY h) (subOpcode_of_maskedXY h),
    fun x y s => ⟨_, exec_ldReg x y s, getV_setV_same s x (s.getV y), onlyRegisters_setV s x (s.getV y)⟩⟩

end Sys2Proof.Machine
end

section
/-! PROOFS. The statement of 44_index.md: ANNN (R140). -/

namespace Sys2Proof.Machine

/-- Every word of family A is a load of I with its address field (R75). -/
theorem decodeWord_ldI {w : Word} (h : family w = 0xA#4) : decodeWord w = .ok (.ldI (fieldNNN w)) :=
  decodeWord_of_decodeOpcode (by simp only [decodeOpcode, h])

/-- A write to I changes I alone: with the old I put back the state is the old one (R10). -/
theorem setI_frame (s : State) (w : Word) : { s.setI w with i := s.i } = s := rfl

/-- ANNN writes the extended address to I, without a check (R140). -/
theorem exec_ldI (nnn : Addr) (s : State) : exec (.ldI nnn) s = .next (s.setI (extendAddr nnn)) := rfl

/-- Settles O26: the decoder by family; the body is one write to I, of an address that keeps its value when extended. -/
theorem loadIndexSetsI : Obligations.LoadIndexSetsI := by
  refine ⟨fun w h => decodeWord_ldI (family_of_masked h), fun nnn s => ⟨_, exec_ldI nnn s, ?_, setI_frame s _⟩⟩
  rw [setI_i, extendAddr, toNat_setWidth_addr]

end Sys2Proof.Machine
end

section
/-! PROOFS. The statement of 45_display.md: 00E0 (R150). -/

namespace Sys2Proof.Machine

/-- 0x00E0 is CLS (R75). -/
theorem decodeWord_cls : decodeWord 0x00E0 = .ok .cls := by decide

/-- CLS writes the cleared frame buffer and nothing else (R150). -/
theorem exec_cls (s : State) : exec .cls s = .next { s with fb := FrameBuffer.clear } := rfl

/-- Settles O28: the body is one write of the frame buffer, and a cleared one has no lit pixel. -/
theorem clearUnlightsEveryPixel : Obligations.ClearUnlightsEveryPixel :=
  ⟨decodeWord_cls, fun s => ⟨_, exec_cls s, fun px py _ _ => pixel_clear px py, rfl⟩⟩

end Sys2Proof.Machine
end

section
/-! PROOFS. The statement of 46_keys.md on the wait for a key: FX0A (R162). -/

namespace Sys2Proof.Machine

/-! ### Decoding by family and low byte -/

/-- The mask 0xF0FF keeps the family nibble (R72, R75). -/
@[simp] theorem family_and_maskX (w : Word) : family (w &&& 0xF0FF) = family w := by
  rw [family, BitVec.extractLsb'_and]
  exact BitVec.and_allOnes

/-- The mask 0xF0FF keeps the low byte (R72, R75). -/
@[simp] theorem fieldNN_and_maskX (w : Word) : fieldNN (w &&& 0xF0FF) = fieldNN w := by
  rw [fieldNN, BitVec.extractLsb'_and]
  exact BitVec.and_allOnes

/-- A word's family can be read from its bits under the mask 0xF0FF (R75). -/
theorem family_of_maskedX {w m : Word} (h : w &&& 0xF0FF = m) : family w = family m := by
  rw [← h, family_and_maskX]

/-- A word's low byte can be read from its bits under the mask 0xF0FF (R75). -/
theorem fieldNN_of_maskedX {w m : Word} (h : w &&& 0xF0FF = m) : fieldNN w = fieldNN m := by
  rw [← h, fieldNN_and_maskX]

/-- A word of family F is what the low byte selects (R73). -/
theorem decodeOpcode_familyF {w : Word} (h : family w = 0xF#4) : decodeOpcode w = decodeFamilyF w := by
  simp only [decodeOpcode, h]

/-- A word of family F with low byte 0x0A is a wait for a key (R75). -/
theorem decodeWord_ldVxK {w : Word} (hf : family w = 0xF#4) (hlow : fieldNN w = 0x0A#8) :
    decodeWord w = .ok (.ldVxK (fieldX w)) := by
  have hother : fieldNN w ≠ 0x07#8 := by rw [hlow]; decide
  exact decodeWord_of_decodeOpcode
    ((decodeOpcode_familyF hf).trans (by rw [decodeFamilyF, if_neg hother, if_pos hlow]))

/-- An encoded FX0A decodes to itself. -/
theorem decodeWord_encode_ldVxK (x : Reg) : decodeWord (encode (.ldVxK x)) = .ok (.ldVxK x) := by
  rw [encode, decodeWord_ldVxK (family_encodeXNN 0xF x 0x0A) (fieldNN_encodeXNN 0xF x 0x0A), fieldX_encodeXNN]

/-! ### Entering the wait -/

/-- FX0A enters the wait and writes nothing else (R162). -/
theorem exec_ldVxK (x : Reg) (s : State) : exec (.ldVxK x) s = .next { s with mode := .awaitingKey x } := rfl

/-- The step that fetches FX0A advances PC and enters the wait (R92, R162). -/
theorem step_ldVxK {s : State} {x : Reg} (h : s.Fetches (encode (.ldVxK x))) :
    step s = .next { s with pc := s.pc + 2, mode := .awaitingKey x } :=
  (step_of_fetches_known h (decodeWord_encode_ldVxK x)).trans (exec_ldVxK x s.advance)

/-! ### The wait and its end -/

/-- `Step()` does nothing and reports nothing in a machine that is not ready (R90). -/
theorem step_idle_of_not_ready {s : State} (h : s.mode ≠ .ready) :
    performed .step s = s ∧ reported .step s = none := by
  have hperform : perform .step s = .next s := stepCycle_waiting h
  simp only [performed, reported, hperform, Result.error?, and_self]

/-- `Load` leaves the machine halted or ready, as the image is too large or fits (R238, R239). -/
theorem loadState_mode (s : State) (bytes : List Byte) :
    (s.loadState bytes).mode = if TooLarge bytes then .halted else .ready := by
  unfold State.loadState
  split <;> rfl

/-- After `Load` no key is awaited, whether or not the image fits (R162). -/
theorem loadState_not_awaiting (s : State) (bytes : List Byte) (y : Reg) :
    (s.loadState bytes).mode ≠ .awaitingKey y := by
  rw [loadState_mode]
  split <;> exact Mode.noConfusion

/-- A key press while one is awaited writes the key to the register named and ends the wait (R162, R198). -/
theorem keyPress_awaiting {s : State} {x : Reg} (h : s.mode = .awaitingKey x) (k : Key) :
    s.keyPress k = { s.setV x (BitVec.ofNat 8 k.val) with mode := .ready } := by
  rw [State.keyPress, h]

/-- A key press is dropped by a ready machine (R198). -/
theorem keyPress_ready {s : State} (h : s.mode = .ready) (k : Key) : performed (.keyPress k) s = s := by
  have hdrop : s.keyPress k = s := by rw [State.keyPress, h]
  exact hdrop

/-- A key index keeps its value as a byte. -/
theorem toNat_keyByte (k : Key) : (BitVec.ofNat 8 k.val).toNat = k.val := by
  rw [BitVec.toNat_ofNat]
  exact Nat.mod_eq_of_lt ((key_lt k).trans (by decide))

/-- The first key press of a wait: its index in VX, the other registers and every other item as they were, and a ready
machine, which drops the next press (R162). -/
theorem keyPress_ends_wait {s : State} {x : Reg} (h : s.mode = .awaitingKey x) (k : Key) :
    ∃ t, performed (.keyPress k) s = t ∧ (t.getV x).toNat = k.val ∧ SameRegistersBut [x] s t ∧ t.mode = .ready ∧
      { t with v := s.v, mode := s.mode } = s ∧ ∀ k2, performed (.keyPress k2) t = t := by
  refine ⟨_, keyPress_awaiting h k, ?_, fun r hr => ?_, rfl, rfl, fun k2 => keyPress_ready rfl k2⟩
  · exact (congrArg BitVec.toNat (getV_setV_same s x _)).trans (toNat_keyByte k)
  · exact getV_setV_other s x _ (List.ne_of_not_mem_cons hr)

/-- Settles O32: the entry through the decoder and the step of a fetched instruction; the wait and its ends event by
event. -/
theorem keyWaitEndsWithNextPress : Obligations.KeyWaitEndsWithNextPress := by
  refine ⟨fun w h => decodeWord_ldVxK (family_of_maskedX h) (fieldNN_of_maskedX h), exec_ldVxK,
    fun x s hfetches => ⟨keyPress_ready hfetches.ready, step_ldVxK hfetches⟩, fun x s hwait => ?_⟩
  have hbusy : s.mode ≠ .ready := by rw [hwait]; exact Mode.noConfusion
  obtain ⟨hstep, hreport⟩ := step_idle_of_not_ready hbusy
  exact ⟨hstep, hreport, hwait, countDown_toNat s.dt, countDown_toNat s.st, fun _ => hwait, resetOp_mode s,
    loadState_not_awaiting s, keyPress_ends_wait hwait⟩

end Sys2Proof.Machine
end

section
/-! PROOFS. The statements of 60_exceptions.md: what raises, exactly when (R193 to R195), and the `Load` that does not fit
(R192). -/

namespace Sys2Proof.Machine

/-! ### What an instruction raises -/

/-- How many bytes from `s.base` an instruction checks before it writes anything (R57, R152, R180 to R182). -/
def accessedBytes : Instr → Nat
  | .drw _ _ n => n.val
  | .ldB _ => 3
  | .stRegs x | .ldRegs x => x.val + 1
  | _ => 0

/-- The instruction `i` raises `f` in the state `s`, by the tables of R192 to R195. -/
def Raises (i : Instr) (s : State) : Fault → Prop
  | .programTooLarge => False
  | .stackOverflow => (∃ nnn, i = .call nnn) ∧ 16 ≤ s.sp
  | .stackUnderflow => i = .ret ∧ s.sp = 0
  | .outOfBoundsAccess => ¬ InMemory s.base (accessedBytes i)

/-- CALL raises exactly `StackOverflow`, with a full stack (R102). -/
theorem exec_call_fault_iff {nnn : Addr} {s : State} {f : Fault} :
    exec (.call nnn) s = .fault f ↔ 16 ≤ s.sp ∧ f = .stackOverflow := by
  rcases Nat.lt_or_ge s.sp 16 with hroom | hfull
  · simp [exec_call_next hroom, Nat.not_le.2 hroom]
  · simp [exec_call_fault hfull, hfull, eq_comm]

/-- RET raises exactly `StackUnderflow`, with an empty stack (R100). -/
theorem exec_ret_fault_iff {s : State} {f : Fault} :
    exec .ret s = .fault f ↔ s.sp = 0 ∧ f = .stackUnderflow := by
  rcases Nat.eq_zero_or_pos s.sp with hempty | hpos
  · simp [exec_ret_fault hempty, hempty, eq_comm]
  · obtain ⟨l, a, hstack⟩ := stack_eq_concat hpos
    simp [exec_ret_next hstack, Nat.ne_of_gt hpos]

/-- An instruction raises what the tables say and nothing else: a call and a return by the state of the stack, an access by
its range, and every other body completes. -/
theorem exec_fault_iff (i : Instr) (s : State) (f : Fault) : exec i s = .fault f ↔ Raises i s f := by
  cases i with
  | call => rw [exec_call_fault_iff]; cases f <;> simp [Raises, accessedBytes]
  | ret => rw [exec_ret_fault_iff]; cases f <;> simp [Raises, accessedBytes]
  | drw | ldB | stRegs | ldRegs => refine accessing_fault.trans ?_; cases f <;> simp [Raises, accessedBytes]
  | _ => refine iff_of_false nofun ?_; cases f <;> simp [Raises, accessedBytes]

/-- The ranges outside memory, as the table of R195 gives them: by the last address of each. -/
theorem not_inMemory_accessedBytes_iff (i : Instr) (s : State) : ¬ InMemory s.base (accessedBytes i) ↔
    (∃ x y n, i = .drw x y n ∧ 0 < n.val ∧ Config.memSize ≤ s.i.toNat + n.val - 1) ∨
    (∃ x, i = .ldB x ∧ Config.memSize ≤ s.i.toNat + 2) ∨
    (∃ x, i = .stRegs x ∧ Config.memSize ≤ s.i.toNat + x.val) ∨
    (∃ x, i = .ldRegs x ∧ Config.memSize ≤ s.i.toNat + x.val) := by
  cases i with
  | drw | ldB | stRegs | ldRegs => simp [accessedBytes, State.base]; omega
  | _ => simp [accessedBytes]

/-! ### What a step raises -/

/-- A ready machine with no event scheduled fetches `w` exactly when its fetch answers `w` (R91). -/
theorem fetches_iff {s : State} {w : Word} (hmode : s.mode = .ready) (hsched : s.schedule = []) :
    s.Fetches w ↔ fetch s = .ok w :=
  ⟨fun h => fetch_ok.2 ⟨h.inside, h.opcode⟩, fun h => ⟨hmode, hsched, (fetch_ok.1 h).1, (fetch_ok.1 h).2⟩⟩

/-- A step that fetches `w` raises exactly when `w` is an instruction that raises; the advance of PC does not matter. -/
theorem step_fault_iff_of_fetches {s : State} {w : Word} {f : Fault} (h : s.Fetches w) :
    step s = .fault f ↔ ∃ i, decodeWord w = .ok i ∧ Raises i s f := by
  cases hw : decodeWord w with
  | ok i =>
    have hadvance : Raises i s.advance f ↔ Raises i s f := by cases f <;> rfl
    simp [step_of_fetches_known h hw, exec_fault_iff, hadvance]
  | error e => simp [step_of_fetches h, executeWord_of_unknown hw]

/-- A step raises in its fetch, or in the instruction it fetches, and nowhere else (R90, R91, R95). -/
theorem step_fault_iff {s : State} {f : Fault} (hsched : s.schedule = []) : step s = .fault f ↔
    (s.mode = .ready ∧ Config.memSize ≤ s.pc.toNat + 1 ∧ f = .outOfBoundsAccess) ∨
    ∃ w i, s.Fetches w ∧ decodeWord w = .ok i ∧ Raises i s f := by
  by_cases hmode : s.mode = .ready
  · simp only [hmode, true_and, ← fetch_error]
    cases hfetch : fetch s with
    | ok w => simp [step_fault_iff_of_fetches ((fetches_iff hmode hsched).2 hfetch), fetches_iff hmode hsched, hfetch]
    | error g => simp [step_of_fetch_error hmode hsched hfetch, fetches_iff hmode hsched, hfetch]
  · have hidle : step s = .next s := (step_nil hsched).trans (stepCycle_waiting hmode)
    have hnofetch : ∀ w, ¬ s.Fetches w := fun _ h => hmode h.ready
    simp [hidle, hmode, hnofetch]

section raisers
variable {s : State} (hsched : s.schedule = [])
include hsched

/-- The raiser of `StackOverflow` (R193). -/
theorem step_stackOverflow_iff (hsp : s.sp ≤ 16) : step s = .fault .stackOverflow ↔
    ∃ w nnn, s.Fetches w ∧ decodeWord w = .ok (.call nnn) ∧ s.sp = 16 := by
  rw [step_fault_iff hsched]
  constructor
  · rintro (⟨-, -, h⟩ | ⟨w, -, hfetches, hw, ⟨nnn, rfl⟩, hfull⟩)
    · exact Fault.noConfusion h
    · exact ⟨w, nnn, hfetches, hw, Nat.le_antisymm hsp hfull⟩
  · rintro ⟨w, nnn, hfetches, hw, hfull⟩
    exact .inr ⟨w, _, hfetches, hw, ⟨nnn, rfl⟩, hfull.ge⟩

/-- The raiser of `StackUnderflow` (R194). -/
theorem step_stackUnderflow_iff : step s = .fault .stackUnderflow ↔
    ∃ w, s.Fetches w ∧ decodeWord w = .ok .ret ∧ s.sp = 0 := by
  rw [step_fault_iff hsched]
  constructor
  · rintro (⟨-, -, h⟩ | ⟨w, -, hfetches, hw, rfl, hempty⟩)
    · exact Fault.noConfusion h
    · exact ⟨w, hfetches, hw, hempty⟩
  · rintro ⟨w, hfetches, hw, hempty⟩
    exact .inr ⟨w, _, hfetches, hw, rfl, hempty⟩

/-- The raisers of `OutOfBoundsAccess` (R195): the fetch, and the instructions that access memory. -/
theorem step_outOfBounds_iff : step s = .fault .outOfBoundsAccess ↔ s.mode = .ready ∧ (Config.memSize ≤ s.pc.toNat + 1 ∨
    ∃ w i, s.Fetches w ∧ decodeWord w = .ok i ∧ ¬ InMemory s.base (accessedBytes i)) := by
  rw [step_fault_iff hsched]
  constructor
  · rintro (⟨hmode, hpc, -⟩ | ⟨w, i, hfetches, h⟩)
    · exact ⟨hmode, .inl hpc⟩
    · exact ⟨hfetches.ready, .inr ⟨w, i, hfetches, h⟩⟩
  · rintro ⟨hmode, hpc | h⟩
    · exact .inl ⟨hmode, hpc, rfl⟩
    · exact .inr h
end raisers

/-! ### What the other operations raise -/

/-- `Load` reports `ProgramTooLarge` for an image that does not fit, and nothing for one that does (R192, R238). -/
theorem reported_load (bytes : List Byte) (s : State) :
    reported (.load bytes) s = if TooLarge bytes then some .programTooLarge else none := by
  rw [reported, perform, loadCycle]
  split <;> rfl

/-- `Load` reports nothing but `ProgramTooLarge`, and that exactly for an image that does not fit (R192). -/
theorem reported_load_eq_some_iff {bytes : List Byte} {s : State} {f : Fault} :
    reported (.load bytes) s = some f ↔ TooLarge bytes ∧ f = .programTooLarge := by
  rw [reported_load]
  split
  case isTrue hlarge => simp only [hlarge, true_and, Option.some.injEq, eq_comm]
  case isFalse hfits => simp only [hfits, false_and, reduceCtorEq]

/-- No event but `Step()` and `Load` reports an error. -/
theorem eq_programTooLarge_of_reported {e : Event} {s : State} {f : Fault} (he : e ≠ .step)
    (h : reported e s = some f) : f = .programTooLarge := by
  cases e with
  | step => exact absurd rfl he
  | load bytes => exact (reported_load_eq_some_iff.1 h).2
  | tick | keyPress | reset | setKeys => cases h

/-- Settles O45: a step raises in its fetch or in the instruction it fetches; each error's raisers are read off the tables
for one instruction. -/
theorem stepRaisesExactlyAsTabulated : Obligations.StepRaisesExactlyAsTabulated := by
  refine ⟨fun s hsched hsp => ⟨step_stackOverflow_iff hsched hsp, step_stackUnderflow_iff hsched, ?_⟩,
    fun e s f => eq_programTooLarge_of_reported⟩
  simpa only [not_inMemory_accessedBytes_iff] using step_outOfBounds_iff hsched

/-- Settles O47: `Load` by its one branch, and the tables name `ProgramTooLarge` for no instruction. -/
theorem loadRejectsLargeImage : Obligations.LoadRejectsLargeImage :=
  ⟨fun _ _ => reported_load_eq_some_iff.trans (and_iff_left rfl), rfl, fun i s => (exec_fault_iff i s _).1⟩

end Sys2Proof.Machine
end

section
/-! PROOFS. A statement of 70_reset_and_hazards.md: `Reset()` twice (R234). -/

namespace Sys2Proof.Machine

/-- `Reset()` never raises, so as an event it leaves the state its operation leaves (R230). -/
theorem performed_reset (s : State) : performed .reset s = s.resetOp := rfl

/-- Settles O49: the event is its operation, and the operation is idempotent. -/
theorem resetIsIdempotent : Obligations.ResetIsIdempotent := by
  intro s
  simp only [performed_reset, resetOp_resetOp]

end Sys2Proof.Machine
end

section
/-! PROOFS. The statements of 30_encoding.md: the fields (R72), the decoder and the encoder as inverses (R75, R76), and
the unknown words (R77). -/

namespace Sys2Proof.Machine

/-! ### The fields of a word as numbers, and how they overlap -/

theorem family_toNat (w : Word) : (family w).toNat = w.toNat / 4096 := by
  have hlt : w.toNat < 65536 := w.isLt
  rw [family, BitVec.extractLsb'_toNat, Nat.shiftRight_eq_div_pow]
  omega

theorem fieldX_val (w : Word) : (fieldX w).val = w.toNat / 256 % 16 := by
  rw [fieldX, BitVec.val_toFin, BitVec.extractLsb'_toNat, Nat.shiftRight_eq_div_pow]

theorem fieldY_val (w : Word) : (fieldY w).val = w.toNat / 16 % 16 := by
  rw [fieldY, BitVec.val_toFin, BitVec.extractLsb'_toNat, Nat.shiftRight_eq_div_pow]

theorem subOpcode_toNat (w : Word) : (subOpcode w).toNat = w.toNat % 16 := by
  rw [subOpcode, BitVec.extractLsb'_toNat, Nat.shiftRight_zero]

theorem fieldNN_toNat (w : Word) : (fieldNN w).toNat = w.toNat % 256 := by
  rw [fieldNN, BitVec.extractLsb'_toNat, Nat.shiftRight_zero]

theorem fieldNNN_toNat (w : Word) : (fieldNNN w).toNat = w.toNat % 4096 := by
  rw [fieldNNN, BitVec.extractLsb'_toNat, Nat.shiftRight_zero]

/-- X and NN are neighbours in NNN. -/
theorem fieldNNN_eq_append (w : Word) : fieldNNN w = nibble (fieldX w) ++ fieldNN w :=
  (BitVec.extractLsb'_append_extractLsb'_eq_extractLsb' (x := w) (len₁ := 8) (len₂ := 4) rfl).symm

/-- Y and N are neighbours in NN. -/
theorem fieldNN_eq_append (w : Word) : fieldNN w = nibble (fieldY w) ++ nibble (fieldN w) :=
  (BitVec.extractLsb'_append_extractLsb'_eq_extractLsb' (x := w) (len₁ := 4) (len₂ := 4) rfl).symm

/-- X, Y and N are neighbours in NNN. -/
theorem fieldNNN_eq_append_append (w : Word) :
    fieldNNN w = nibble (fieldX w) ++ nibble (fieldY w) ++ nibble (fieldN w) := by
  rw [fieldNNN_eq_append, fieldNN_eq_append]
  exact BitVec.append_assoc'

/-- Settles O1: each field as a number, and the overlaps as concatenations of neighbouring fields. -/
theorem fieldsOfOpcode : Obligations.FieldsOfOpcode := fun w =>
  ⟨family_toNat w, fieldX_val w, fieldY_val w, subOpcode_toNat w, rfl, fieldNN_toNat w, fieldNNN_toNat w,
    fieldNNN_eq_append w, fieldNNN_eq_append_append w⟩

/-! ### Decoding an encoded instruction -/

/-- The decoder gives back the instruction whose word it is given: the family, and the sub-opcode or low byte where the
family has one, select its row, and the fields are the operands (R73, R75). -/
theorem decodeOpcode_encode (i : Instr) : decodeOpcode (encode i) = some i := by
  cases i with
  | ldReg | or | and | xor | addReg | sub | shr | subn | shl => simp [encode, decodeOpcode, decodeFamily8]
  | skp | sknp => simp [encode, decodeOpcode, decodeFamilyE]
  | ldVxDt | ldDtVx | ldStVx | ldVxK | addI | ldF | ldB | stRegs | ldRegs =>
    simp [encode, decodeOpcode, decodeFamilyF]
  | cls | ret => rfl
  | _ => simp [encode, decodeOpcode]

theorem decodeWord_encode (i : Instr) : decodeWord (encode i) = .ok i :=
  decodeWord_of_decodeOpcode (decodeOpcode_encode i)

/-- Settles O3: the two bytes make up the encoded word again, which decodes to its instruction, by the formats. -/
theorem decodeOfEncodeIsInstruction : Obligations.DecodeOfEncodeIsInstruction := by
  intro i rest _
  rw [encodeBytes, List.cons_append, List.cons_append, List.nil_append, decode, opcodeOf_bytes, decodeWord_encode]
  rfl

/-- Settles O2: closed words, run through the decoder. -/
theorem wordsDecodeAsTabulated : Obligations.WordsDecodeAsTabulated :=
  ⟨rfl, rfl, rfl, rfl, rfl, rfl, rfl, rfl, rfl, rfl, rfl, rfl, rfl⟩

/-! ### Encoding a decoded word -/

section refill
variable {w : Word} {f : BitVec 4} (hf : family w = f)
include hf

/-- A word is its family and NNN (R71). -/
theorem encodeNNN_fields : encodeNNN f (fieldNNN w) = w := by
  rw [← hf]
  exact BitVec.extractLsb'_append_extractLsb' (w := 4) (len := 12)

/-- A word is its family, X and NN (R71). -/
theorem encodeXNN_fields {nn : Byte} (hnn : fieldNN w = nn) : encodeXNN f (fieldX w) nn = w := by
  calc encodeXNN f (fieldX w) nn
    _ = encodeNNN f (nibble (fieldX w) ++ nn) := BitVec.append_assoc'.symm
    _ = encodeNNN f (fieldNNN w) := by rw [fieldNNN_eq_append, hnn]
    _ = w := encodeNNN_fields hf

/-- A word is its family, X, Y and N (R71). -/
theorem encodeXYN_fields {n : BitVec 4} (hn : subOpcode w = n) : encodeXYN f (fieldX w) (fieldY w) n = w := by
  have hnn : fieldNN w = nibble (fieldY w) ++ n := (fieldNN_eq_append w).trans (congrArg (nibble (fieldY w) ++ ·) hn)
  calc encodeXYN f (fieldX w) (fieldY w) n
    _ = encodeXNN f (fieldX w) (nibble (fieldY w) ++ n) := BitVec.append_assoc'.symm
    _ = w := encodeXNN_fields hf hnn
end refill

/-- Family 0 holds the words of its two instructions alone. -/
theorem encode_of_decodeFamily0 {w : Word} {i : Instr} (h : decodeFamily0 w = some i) : encode i = w := by
  unfold decodeFamily0 at h
  split_ifs at h with hcls hret <;> cases h
  · exact hcls.symm
  · exact hret.symm

/-- Each row of family 8 encodes with the sub-opcode that selects it (R75). -/
theorem encode_of_decodeFamily8 {w : Word} {i : Instr} (hf : family w = 8#4) (h : decodeFamily8 w = some i) :
    encode i = w := by
  unfold decodeFamily8 at h
  split at h <;> cases h <;> exact encodeXYN_fields hf ‹_›

/-- Each row of family E encodes with the low byte that selects it (R75). -/
theorem encode_of_decodeFamilyE {w : Word} {i : Instr} (hf : family w = 0xE#4) (h : decodeFamilyE w = some i) :
    encode i = w := by
  unfold decodeFamilyE at h
  split_ifs at h <;> cases h <;> exact encodeXNN_fields hf ‹_›

/-- Each row of family F encodes with the low byte that selects it (R75). -/
theorem encode_of_decodeFamilyF {w : Word} {i : Instr} (hf : family w = 0xF#4) (h : decodeFamilyF w = some i) :
    encode i = w := by
  unfold decodeFamilyF at h
  split_ifs at h <;> cases h <;> exact encodeXNN_fields hf ‹_›

/-- A known word is the encoding of its instruction: the decoder's branch fixes every bit that is not an operand. -/
theorem encode_of_decodeOpcode {w : Word} {i : Instr} (h : decodeOpcode w = some i) : encode i = w := by
  unfold decodeOpcode at h
  split at h
  next => exact encode_of_decodeFamily0 h
  next hf => cases h; exact encodeNNN_fields hf
  next hf => cases h; exact encodeNNN_fields hf
  next hf => cases h; exact encodeXNN_fields hf rfl
  next hf => cases h; exact encodeXNN_fields hf rfl
  next hf => split_ifs at h with hsub; cases h; exact encodeXYN_fields hf hsub
  next hf => cases h; exact encodeXNN_fields hf rfl
  next hf => cases h; exact encodeXNN_fields hf rfl
  next hf => exact encode_of_decodeFamily8 hf h
  next hf => split_ifs at h with hsub; cases h; exact encodeXYN_fields hf hsub
  next hf => cases h; exact encodeNNN_fields hf
  next hf => cases h; exact encodeNNN_fields hf
  next hf => cases h; exact encodeXNN_fields hf rfl
  next hf => cases h; exact encodeXYN_fields hf rfl
  next hf => exact encode_of_decodeFamilyE hf h
  next hf => exact encode_of_decodeFamilyF hf h
  next => cases h

/-- The decoder answers `i` exactly where the opcode map does. -/
theorem decodeWord_ok_iff {w : Word} {i : Instr} : decodeWord w = .ok i ↔ decodeOpcode w = some i := by
  unfold decodeWord
  cases decodeOpcode w <;> simp

/-- The decoder names a word exactly where the opcode map does not have it (R77). -/
theorem decodeWord_unknown_iff {w : Word} : decodeWord w = .error (.unknownOpcode w) ↔ decodeOpcode w = none := by
  unfold decodeWord
  cases decodeOpcode w <;> simp

/-- Settles O4: the decoder's branches, with a word written out as its fields. -/
theorem encodeOfDecodedIsWord : Obligations.EncodeOfDecodedIsWord := fun _ _ h =>
  encode_of_decodeOpcode (decodeWord_ok_iff.1 h)

/-! ### The rows of the opcode map -/

/-- The encoding of an instruction matches the row that bears its mnemonic (R75). -/
theorem mnemonic_matches_encode (i : Instr) : i.mnemonic.Matches (encode i) := by
  cases i with
  | cls | ret => decide
  | jp | call | ldI | jpV0 => exact mask_encodeNNN _ _
  | seImm | sneImm | ldImm | addImm | rnd => exact mask_encodeXNN _ _ _
  | drw => exact mask_encodeXYN _ _ _ _
  | seReg | sneReg | ldReg | or | and | xor | addReg | sub | shr | subn | shl => exact mask_encodeXY _ _ _ _
  | _ => exact mask_encodeX _ _ _

/-- A word that matches a row is the encoding of an instruction of that row: the row's bits and the word's fields make
up the word (R71, R75). -/
theorem exists_encode_of_matches {m : Mnemonic} {w : Word} (h : m.Matches w) :
    ∃ i : Instr, i.mnemonic = m ∧ encode i = w := by
  cases m with
  | CLS => exact ⟨.cls, rfl, h.symm.trans BitVec.and_allOnes⟩
  | RET => exact ⟨.ret, rfl, h.symm.trans BitVec.and_allOnes⟩
  | JP => exact ⟨.jp (fieldNNN w), rfl, encodeNNN_fields (family_of_masked h)⟩
  | CALL => exact ⟨.call (fieldNNN w), rfl, encodeNNN_fields (family_of_masked h)⟩
  | SE_IMM => exact ⟨.seImm (fieldX w) (fieldNN w), rfl, encodeXNN_fields (family_of_masked h) rfl⟩
  | SNE_IMM => exact ⟨.sneImm (fieldX w) (fieldNN w), rfl, encodeXNN_fields (family_of_masked h) rfl⟩
  | SE_REG =>
    exact ⟨.seReg (fieldX w) (fieldY w), rfl, encodeXYN_fields (family_of_maskedXY h) (subOpcode_of_maskedXY h)⟩
  | SNE_REG =>
    exact ⟨.sneReg (fieldX w) (fieldY w), rfl, encodeXYN_fields (family_of_maskedXY h) (subOpcode_of_maskedXY h)⟩
  | LD_IMM => exact ⟨.ldImm (fieldX w) (fieldNN w), rfl, encodeXNN_fields (family_of_masked h) rfl⟩
  | ADD_IMM => exact ⟨.addImm (fieldX w) (fieldNN w), rfl, encodeXNN_fields (family_of_masked h) rfl⟩
  | LD_REG =>
    exact ⟨.ldReg (fieldX w) (fieldY w), rfl, encodeXYN_fields (family_of_maskedXY h) (subOpcode_of_maskedXY h)⟩
  | OR => exact ⟨.or (fieldX w) (fieldY w), rfl, encodeXYN_fields (family_of_maskedXY h) (subOpcode_of_maskedXY h)⟩
  | AND => exact ⟨.and (fieldX w) (fieldY w), rfl, encodeXYN_fields (family_of_maskedXY h) (subOpcode_of_maskedXY h)⟩
  | XOR => exact ⟨.xor (fieldX w) (fieldY w), rfl, encodeXYN_fields (family_of_maskedXY h) (subOpcode_of_maskedXY h)⟩
  | ADD_REG =>
    exact ⟨.addReg (fieldX w) (fieldY w), rfl, encodeXYN_fields (family_of_maskedXY h) (subOpcode_of_maskedXY h)⟩
  | SUB => exact ⟨.sub (fieldX w) (fieldY w), rfl, encodeXYN_fields (family_of_maskedXY h) (subOpcode_of_maskedXY h)⟩
  | SHR => exact ⟨.shr (fieldX w) (fieldY w), rfl, encodeXYN_fields (family_of_maskedXY h) (subOpcode_of_maskedXY h)⟩
  | SUBN => exact ⟨.subn (fieldX w) (fieldY w), rfl, encodeXYN_fields (family_of_maskedXY h) (subOpcode_of_maskedXY h)⟩
  | SHL => exact ⟨.shl (fieldX w) (fieldY w), rfl, encodeXYN_fields (family_of_maskedXY h) (subOpcode_of_maskedXY h)⟩
  | LD_I => exact ⟨.ldI (fieldNNN w), rfl, encodeNNN_fields (family_of_masked h)⟩
  | JP_V0 => exact ⟨.jpV0 (fieldNNN w), rfl, encodeNNN_fields (family_of_masked h)⟩
  | RND => exact ⟨.rnd (fieldX w) (fieldNN w), rfl, encodeXNN_fields (family_of_masked h) rfl⟩
  | DRW => exact ⟨.drw (fieldX w) (fieldY w) (fieldN w), rfl, encodeXYN_fields (family_of_masked h) rfl⟩
  | SKP => exact ⟨.skp (fieldX w), rfl, encodeXNN_fields (family_of_maskedX h) (fieldNN_of_maskedX h)⟩
  | SKNP => exact ⟨.sknp (fieldX w), rfl, encodeXNN_fields (family_of_maskedX h) (fieldNN_of_maskedX h)⟩
  | LD_VX_DT => exact ⟨.ldVxDt (fieldX w), rfl, encodeXNN_fields (family_of_maskedX h) (fieldNN_of_maskedX h)⟩
  | LD_DT_VX => exact ⟨.ldDtVx (fieldX w), rfl, encodeXNN_fields (family_of_maskedX h) (fieldNN_of_maskedX h)⟩
  | LD_ST_VX => exact ⟨.ldStVx (fieldX w), rfl, encodeXNN_fields (family_of_maskedX h) (fieldNN_of_maskedX h)⟩
  | LD_VX_K => exact ⟨.ldVxK (fieldX w), rfl, encodeXNN_fields (family_of_maskedX h) (fieldNN_of_maskedX h)⟩
  | ADD_I => exact ⟨.addI (fieldX w), rfl, encodeXNN_fields (family_of_maskedX h) (fieldNN_of_maskedX h)⟩
  | LD_F => exact ⟨.ldF (fieldX w), rfl, encodeXNN_fields (family_of_maskedX h) (fieldNN_of_maskedX h)⟩
  | LD_B => exact ⟨.ldB (fieldX w), rfl, encodeXNN_fields (family_of_maskedX h) (fieldNN_of_maskedX h)⟩
  | ST_REGS => exact ⟨.stRegs (fieldX w), rfl, encodeXNN_fields (family_of_maskedX h) (fieldNN_of_maskedX h)⟩
  | LD_REGS => exact ⟨.ldRegs (fieldX w), rfl, encodeXNN_fields (family_of_maskedX h) (fieldNN_of_maskedX h)⟩

/-- A word matches a row exactly when it decodes to an instruction of the row (R73, R75). -/
theorem matches_iff {m : Mnemonic} {w : Word} : m.Matches w ↔ ∃ i, decodeWord w = .ok i ∧ i.mnemonic = m := by
  constructor
  · intro h
    obtain ⟨i, hi, rfl⟩ := exists_encode_of_matches h
    exact ⟨i, decodeWord_encode i, hi⟩
  · rintro ⟨i, hw, rfl⟩
    rw [← encode_of_decodeOpcode (decodeWord_ok_iff.1 hw)]
    exact mnemonic_matches_encode i

/-- A word is unknown exactly when it matches no row (R77). -/
theorem unknown_iff_no_match {w : Word} :
    decodeWord w = .error (.unknownOpcode w) ↔ ∀ m : Mnemonic, ¬ m.Matches w := by
  simp only [matches_iff, decodeWord_unknown_iff, decodeWord_ok_iff]
  cases decodeOpcode w <;> simp

/-- A word matches one row at most (R76). -/
theorem eq_of_matches {m k : Mnemonic} {w : Word} (hm : m.Matches w) (hk : k.Matches w) : m = k := by
  obtain ⟨i, hi, rfl⟩ := matches_iff.1 hm
  obtain ⟨j, hj, rfl⟩ := matches_iff.1 hk
  cases hi.symm.trans hj
  rfl

/-- Settles O5: a word matches a row exactly when it is the encoding of an instruction of the row. -/
theorem decoderSelectsTheMatchingRow : Obligations.DecoderSelectsTheMatchingRow := fun _ =>
  ⟨fun _ => matches_iff, unknown_iff_no_match, fun _ _ => eq_of_matches⟩

/-! ### The unknown words -/

/-! The unknown words of each family that has some, by the bits that select in it: where a row is selected both sides
fail, and where none is the number differs from every selector. -/

theorem decodeFamily0_none_iff {w : Word} : decodeFamily0 w = none ↔ w.toNat ≠ 0x0E0 ∧ w.toNat ≠ 0x0EE := by
  unfold decodeFamily0
  split_ifs <;> simp [*]
  bv_omega

theorem decodeFamily8_none_iff {w : Word} :
    decodeFamily8 w = none ↔ 8 ≤ w.toNat % 16 ∧ w.toNat % 16 ≠ 0xE := by
  rw [← subOpcode_toNat]
  unfold decodeFamily8
  split <;> simp [*]
  simp only [imp_false] at *
  bv_omega

theorem decodeFamilyE_none_iff {w : Word} : decodeFamilyE w = none ↔ w.toNat % 256 ∉ [0x9E, 0xA1] := by
  rw [← fieldNN_toNat]
  unfold decodeFamilyE
  split_ifs <;> simp [*]
  bv_omega

theorem decodeFamilyF_none_iff {w : Word} : decodeFamilyF w = none ↔
    w.toNat % 256 ∉ [0x07, 0x0A, 0x15, 0x18, 0x1E, 0x29, 0x33, 0x55, 0x65] := by
  rw [← fieldNN_toNat]
  unfold decodeFamilyF
  split_ifs <;> simp [*]
  bv_omega

/-- A sub-opcode that is not 0, as a number (R73). -/
theorem subOpcode_ne_zero_iff {w : Word} : subOpcode w ≠ 0#4 ↔ w.toNat % 16 ≠ 0 := by
  rw [← subOpcode_toNat, ne_eq, ← BitVec.toNat_inj]
  rfl

/-- Settles O6: the family selects the branch of the decoder, and the branch the unknown words of the family. -/
theorem unknownOpcodesByFamily : Obligations.UnknownOpcodesByFamily := by
  intro w
  rw [decodeWord_unknown_iff, ← family_toNat]
  unfold decodeOpcode
  split
  case h_17 => -- there is no seventeenth family
    simp only [imp_false] at *
    bv_omega
  all_goals
    rename_i hf
    simp [hf, decodeFamily0_none_iff, decodeFamily8_none_iff, decodeFamilyE_none_iff, decodeFamilyF_none_iff,
      subOpcode_ne_zero_iff]

end Sys2Proof.Machine
end

section
/-! PROOFS. The statements of 40_step_cycle.md on the step of a decoded instruction (R90, R92) and on the execution of
every word (30_encoding.md R79). -/

namespace Sys2Proof.Machine

/-! ### The step of a decoded instruction -/

/-- Two bytes decode to what the word they form decodes to, with nothing left (R50, R70). -/
theorem decode_pair_iff {hi lo : Byte} {i : Instr} :
    decode [hi, lo] = .ok (i, []) ↔ decodeWord (opcodeOf hi lo) = .ok i := by
  rw [decode]
  cases decodeWord (opcodeOf hi lo) <;> simp [Except.map]

/-- Settles O7: the two bytes are the word that the step fetches. -/
theorem stepRunsDecodedInstruction : Obligations.StepRunsDecodedInstruction := by
  intro s i hmode hsched hpc hdecode _
  have hfetches : s.Fetches (opcodeOf (s.readByte s.pc.toNat) (s.readByte (s.pc.toNat + 1))) :=
    ⟨hmode, hsched, hpc, rfl⟩
  exact step_of_fetches_known hfetches (decode_pair_iff.1 hdecode)

/-! ### No refusal -/

/-- No instruction is refused: a body commits, accesses memory, or answers its next state (R79). -/
theorem exec_not_refused (i : Instr) (s : State) (q : Refusal) : exec i s ≠ .refused q := by
  cases i with
  | ret | call => exact commit_not_refused
  | drw | ldB | stRegs | ldRegs => exact accessing_not_refused
  | _ => exact nofun

/-- `Step()` is never refused (R90). -/
theorem stepCycle_not_refused (s : State) (q : Refusal) : stepCycle s ≠ .refused q := by
  by_cases hmode : s.mode = .ready
  · rw [stepCycle_ready hmode]
    split
    · exact nofun
    · split
      · exact exec_not_refused _ _ q
      · exact nofun
  · rw [stepCycle_waiting hmode]
    exact nofun

/-- `Load` ends in a next state or an error (R238). -/
theorem loadCycle_not_refused (bytes : List Byte) (s : State) (q : Refusal) : loadCycle bytes s ≠ .refused q := by
  unfold loadCycle
  split <;> exact nofun

/-- No event is refused (R200). -/
theorem perform_not_refused (e : Event) (s : State) (q : Refusal) : perform e s ≠ .refused q := by
  cases e with
  | step => exact stepCycle_not_refused s q
  | load bytes => exact loadCycle_not_refused bytes s q
  | _ => exact nofun

/-- The machine's step performs the next event of the schedule, and `Step()` when there is none (R200; log 1). -/
theorem exists_perform_of_step (s : State) : ∃ e rest, step s = perform e { s with schedule := rest } := by
  cases hsched : s.schedule with
  | nil =>
    refine ⟨.step, [], (step_nil hsched).trans ?_⟩
    rw [← hsched]
    rfl
  | cons e rest => exact ⟨e, rest, step_cons hsched⟩

/-- No step of the machine is refused (R79). -/
theorem step_not_refused (s : State) (q : Refusal) : step s ≠ .refused q := by
  obtain ⟨e, rest, hstep⟩ := exists_perform_of_step s
  rw [hstep]
  exact perform_not_refused e _ q

/-- A word that does not decode is unknown (R77). -/
theorem decodeWord_error {w : Word} {e : DecodeError} (h : decodeWord w = .error e) :
    decodeWord w = .error (.unknownOpcode w) := by
  rw [decodeWord_unknown_iff]
  cases hw : decodeOpcode w with
  | none => rfl
  | some i => rw [decodeWord_of_decodeOpcode hw] at h; cases h

/-- Settles O10: no step is refused, by its event; a fetched word is known or unknown; and at the value VX the shifted
source does not mention Y. -/
theorem everyWordExecutes : Obligations.EveryWordExecutes := by
  refine ⟨step_not_refused, fun s w hfetches => ?_, fun s x y z => ⟨rfl, rfl⟩⟩
  cases hw : decodeWord w with
  | ok i => exact .inl ⟨i, rfl, step_of_fetches_known hfetches hw⟩
  | error e =>
    exact .inr ⟨hw ▸ decodeWord_error hw, (step_of_fetches hfetches).trans (executeWord_of_unknown hw s)⟩

end Sys2Proof.Machine
end

section
/-! PROOFS. The statements of 41_control_flow.md on the return from a subroutine (R100; S4) and on BNNN (R103). -/

namespace Sys2Proof.Machine

/-- Settles O14: the call pushes the address after it, and the return takes the newest entry and leaves the rest. -/
theorem returnUndoesCall : Obligations.ReturnUndoesCall := fun nnn _ hroom =>
  ⟨_, exec_call_next hroom nnn, List.length_append, fun _ hstack => exec_ret_next hstack⟩

/-- BNNN jumps to NNN + V0 (R103). -/
theorem exec_jpV0 (nnn : Addr) (s : State) :
    exec (.jpV0 nnn) s = .next (s.jump (extendAddr nnn + extendByte (s.getV 0))) := rfl

/-- An address extended to 16 bits is still an address (R74). -/
theorem toNat_extendAddr_lt (nnn : Addr) : (extendAddr nnn).toNat < 4096 := by
  rw [extendAddr, toNat_setWidth_addr]
  exact nnn.isLt

/-- A byte keeps its value when it is extended to 16 bits (R103, R141). -/
theorem toNat_extendByte (b : Byte) : (extendByte b).toNat = b.toNat :=
  BitVec.toNat_setWidth_of_le (by decide)

/-- An address and a byte are too small for their sum to wrap in 16 bits (R103). -/
theorem toNat_extendAddr_add_extendByte (nnn : Addr) (b : Byte) :
    (extendAddr nnn + extendByte b).toNat = nnn.toNat + b.toNat := by
  have haddr : nnn.toNat < 4096 := nnn.isLt
  have hbyte : b.toNat < 256 := b.isLt
  rw [BitVec.toNat_add, toNat_extendByte, extendAddr, toNat_setWidth_addr]
  omega

/-- Settles O16: the body is one write of PC, of a sum that does not wrap. -/
theorem indexedJumpAddsV0 : Obligations.IndexedJumpAddsV0 := fun nnn s =>
  ⟨_, exec_jpV0 nnn s, toNat_extendAddr_add_extendByte nnn (s.getV 0), rfl⟩

end Sys2Proof.Machine
end

section
/-! PROOFS. The frame of every instruction (10_state.md, 40_step_cycle.md R92, 20_memory.md R53), from one statement of
what each may write. -/

namespace Sys2Proof.Machine

/-! ### What a completed body may have written -/

/-- RET completes exactly on a stack with a newest entry, which it moves into PC (R100). -/
theorem exec_ret_next_iff {s t : State} :
    exec .ret s = .next t ↔ ∃ l a, s.stack = l ++ [a] ∧ t = { s with stack := l, pc := a } := by
  constructor
  · intro h
    rcases Nat.eq_zero_or_pos s.sp with hempty | hpos
    · cases (exec_ret_fault hempty).symm.trans h
    · obtain ⟨l, a, hstack⟩ := stack_eq_concat hpos
      cases (exec_ret_next hstack).symm.trans h
      exact ⟨l, a, hstack, rfl⟩
  · rintro ⟨l, a, hstack, rfl⟩
    exact exec_ret_next hstack

/-- CALL completes exactly with room on the stack, pushes PC and jumps (R102). -/
theorem exec_call_next_iff {nnn : Addr} {s t : State} : exec (.call nnn) s = .next t ↔
    s.sp < 16 ∧ t = { s with stack := s.stack ++ [s.pc], pc := nnn.setWidth 16 } := by
  constructor
  · intro h
    rcases Nat.lt_or_ge s.sp 16 with hroom | hfull
    · cases (exec_call_next hroom nnn).symm.trans h
      exact ⟨hroom, rfl⟩
    · cases (exec_call_fault hfull nnn).symm.trans h
  · rintro ⟨hroom, rfl⟩
    exact exec_call_next hroom nnn

/-- The state `s` with the items that `i` may write taken from `t` (10_state.md). -/
def takeWritten (i : Instr) (s t : State) : State :=
  match i with
  | .ret | .call _ => { s with pc := t.pc, stack := t.stack }
  | .jp _ | .jpV0 _ | .seImm _ _ | .sneImm _ _ | .seReg _ _ | .sneReg _ _ | .skp _ | .sknp _ => { s with pc := t.pc }
  | .ldImm _ _ | .addImm _ _ | .ldReg _ _ | .or _ _ | .and _ _ | .xor _ _ | .addReg _ _ | .sub _ _ | .shr _ _
  | .subn _ _ | .shl _ _ | .ldVxDt _ | .ldRegs _ => { s with v := t.v }
  | .rnd _ _ => { s with v := t.v, draws := t.draws }
  | .cls => { s with fb := t.fb }
  | .drw _ _ _ => { s with v := t.v, fb := t.fb }
  | .ldI _ | .addI _ | .ldF _ => { s with i := t.i }
  | .ldDtVx _ => { s with dt := t.dt }
  | .ldStVx _ => { s with st := t.st }
  | .ldVxK _ => { s with mode := t.mode }
  | .ldB _ | .stRegs _ => { s with mem := t.mem }

/-- A completed body has written nothing else. -/
theorem exec_writes {i : Instr} {s t : State} (h : exec i s = .next t) : t = takeWritten i s t := by
  cases i with
  | ret => obtain ⟨l, a, -, rfl⟩ := exec_ret_next_iff.1 h; rfl
  | call => obtain ⟨-, rfl⟩ := exec_call_next_iff.1 h; rfl
  | seImm | sneImm | seReg | sneReg | skp | sknp => cases h; rw [skipIf_eq]; rfl
  | drw | ldB | stRegs => obtain ⟨-, rfl⟩ := accessing_next.1 h; rfl
  | ldRegs => obtain ⟨-, rfl⟩ := accessing_next.1 h; exact loadRegisters_rest s _ _
  | _ => cases h; rfl

/-! ### Who writes each item, in the words of the spec's tables of writers -/

section writers
variable {i : Instr} {s t : State} (h : exec i s = .next t)
include h

theorem exec_pc (hi : ∀ x y nn nnn, i ≠ .ret ∧ i ≠ .jp nnn ∧ i ≠ .call nnn ∧ i ≠ .jpV0 nnn ∧ i ≠ .seImm x nn ∧
    i ≠ .sneImm x nn ∧ i ≠ .seReg x y ∧ i ≠ .sneReg x y ∧ i ≠ .skp x ∧ i ≠ .sknp x) : t.pc = s.pc := by
  rw [exec_writes h]
  cases i with
  | ret | jp | call | jpV0 | seImm | sneImm | seReg | sneReg | skp | sknp => simp at hi
  | _ => rfl

theorem exec_i (hi : ∀ x nnn, i ≠ .ldI nnn ∧ i ≠ .addI x ∧ i ≠ .ldF x) : t.i = s.i := by
  rw [exec_writes h]
  cases i with
  | ldI | addI | ldF => simp at hi
  | _ => rfl

theorem exec_dt (hi : ∀ x, i ≠ .ldDtVx x) : t.dt = s.dt := by
  rw [exec_writes h]
  cases i with
  | ldDtVx x => exact absurd rfl (hi x)
  | _ => rfl

theorem exec_st (hi : ∀ x, i ≠ .ldStVx x) : t.st = s.st := by
  rw [exec_writes h]
  cases i with
  | ldStVx x => exact absurd rfl (hi x)
  | _ => rfl

theorem exec_mode (hi : ∀ x, i ≠ .ldVxK x) : t.mode = s.mode := by
  rw [exec_writes h]
  cases i with
  | ldVxK x => exact absurd rfl (hi x)
  | _ => rfl

theorem exec_stack (hi : ∀ nnn, i ≠ .call nnn ∧ i ≠ .ret) : t.stack = s.stack := by
  rw [exec_writes h]
  cases i with
  | call | ret => simp at hi
  | _ => rfl

theorem exec_fb (hi : ∀ x y n, i ≠ .cls ∧ i ≠ .drw x y n) : t.fb = s.fb := by
  rw [exec_writes h]
  cases i with
  | cls | drw => simp at hi
  | _ => rfl

theorem exec_draws (hi : ∀ x nn, i ≠ .rnd x nn) : t.draws = s.draws := by
  rw [exec_writes h]
  cases i with
  | rnd x nn => exact absurd rfl (hi x nn)
  | _ => rfl

theorem exec_keys : t.keys = s.keys := by
  rw [exec_writes h]
  cases i <;> rfl

theorem exec_schedule : t.schedule = s.schedule := by
  rw [exec_writes h]
  cases i <;> rfl
end writers

/-! ### The registers and the bytes of memory that an instruction writes -/

/-- A flag-writing instruction changes its destination and VF alone (R21, R25). -/
theorem onlyRegisters_writeFlagged (s : State) (x : Reg) (r f : Byte) :
    OnlyRegisters [x, VF] s (s.writeFlagged x r f) := by
  have hregs : SameRegistersBut [x, VF] s (s.writeFlagged x r f) := by
    intro q hq
    simp only [List.mem_cons, List.not_mem_nil, or_false, not_or] at hq
    obtain ⟨hx, hflag⟩ := hq
    rw [getV_writeFlagged, if_neg hflag, if_neg hx]
  exact ⟨hregs, ⟨rfl, rfl, rfl, rfl, rfl, rfl, rfl, rfl, rfl⟩, fun _ => rfl, rfl⟩

/-- The registers that FX65 writes are V0 to VX (R182). -/
theorem mem_destinations_ldRegs {x r : Reg} : r ∈ destinations (.ldRegs x) ↔ r.val < x.val + 1 := by
  simp [destinations]

/-- A completed body writes no register but its destinations (R21). -/
theorem exec_registers {i : Instr} {s t : State} (h : exec i s = .next t) : SameRegistersBut (destinations i) s t := by
  cases i with
  | ldImm | addImm | ldReg | or | and | xor | ldVxDt => cases h; exact (onlyRegisters_setV s _ _).1
  | rnd x nn => cases h; exact (onlyRegisters_setV s.random.2 _ _).1
  | addReg | sub | shr | subn | shl => cases h; exact (onlyRegisters_writeFlagged s _ _ _).1
  | drw x y n => obtain ⟨-, rfl⟩ := accessing_next.1 h; exact (onlyRegisters_setV _ VF _).1
  | ldRegs x =>
    obtain ⟨-, rfl⟩ := accessing_next.1 h
    intro r hr
    rw [getV_loadRegisters s _ _ (reg_lt x), if_neg (mt mem_destinations_ldRegs.2 hr)]
  | _ => rw [exec_writes h]; exact fun _ _ => rfl

/-- Stored bytes leave the memory outside them as it was (R53). -/
theorem sameMemoryOutside_storeAtI (s : State) {bs : List Byte} {n : Nat} (hn : bs.length = n) :
    SameMemoryOutside s.base n s (s.storeAtI bs) :=
  fun _ ha => read_writeBytes_outside s.mem (hn ▸ ha)

/-- A completed body stores only its bytes from `s.base` (R53). -/
theorem exec_memory {i : Instr} {s t : State} (h : exec i s = .next t) :
    SameMemoryOutside s.base (storedBytes i) s t := by
  cases i with
  | ldB x => obtain ⟨-, rfl⟩ := accessing_next.1 h; exact sameMemoryOutside_storeAtI s rfl
  | stRegs x =>
    obtain ⟨-, rfl⟩ := accessing_next.1 h
    exact sameMemoryOutside_storeAtI s (length_registers s (reg_lt x))
  | _ => rw [exec_writes h]; exact fun _ _ => rfl

/-- Settles O43: the frame item by item. -/
theorem everyInstructionKeepsItsFrame : Obligations.EveryInstructionKeepsItsFrame := fun _ _ _ h =>
  ⟨exec_registers h, exec_memory h, exec_pc h, exec_i h, exec_dt h, exec_st h, exec_mode h, exec_stack h, exec_fb h,
    exec_draws h, exec_keys h, exec_schedule h⟩

end Sys2Proof.Machine
end

section
/-! PROOFS. The invariant: after `Reset()`, along every step, and along every sequence of events (10_state.md
sections 2, 5 and 6). -/

namespace Sys2Proof.Machine

/-! ### Reset -/

/-- `Reset()` leaves a state that meets the invariant, whatever it met (R230). -/
theorem resetOp_inv (s : State) : s.resetOp.Inv := by
  refine ⟨?_, ⟨by simp, by simp⟩, by simp, fun _ => rfl⟩
  rw [resetOp_mem]
  exact wf_nil

/-- The state after reset is one that `Reset()` leaves (R42, R230). -/
theorem resetOp_reset : State.reset.resetOp = State.reset := resetOp_eq State.reset

/-- Settles O51: the state is one that `Reset()` leaves. -/
theorem resetMeetsInvariant : Obligations.ResetMeetsInvariant := by
  have hinv := resetOp_inv State.reset
  rwa [resetOp_reset] at hinv

/-! ### An instruction keeps each part of the invariant -/

/-- PC does not wrap when it advances from inside memory (R24). -/
theorem toNat_add_two {p : Word} (hp : p.toNat ≤ 0x1000) : (p + 2).toNat = p.toNat + 2 := by
  bv_omega

/-- A skip from inside memory adds 2 to PC at most (R110). -/
theorem skipIf_pc_le {s : State} (hpc : s.pc.toNat ≤ 0x1000) (c : Bool) : (s.skipIf c).pc.toNat ≤ 0x1002 := by
  rw [skipIf_pc]
  split
  · rw [toNat_add_two hpc]; omega
  · omega

section bodies
variable {i : Instr} {s t : State} (h : exec i s = .next t)
include h

/-- The two storing instructions write inside memory, and the others write none (R53, R57). -/
theorem exec_keeps_wf (hwf : s.mem.wf) : t.mem.wf := by
  cases i with
  | ldB x =>
    obtain ⟨hin, rfl⟩ := accessing_next.1 h
    exact wf_writeBytes hwf (hin.resolve_left (by decide))
  | stRegs x =>
    obtain ⟨hin, rfl⟩ := accessing_next.1 h
    refine wf_writeBytes hwf ?_
    rw [length_registers s (reg_lt x)]
    exact hin.resolve_left (Nat.succ_ne_zero _)
  | _ => rw [exec_writes h]; exact hwf

/-- A call below the full depth pushes a sound entry, a return removes one, and no other body writes the stack (R36). -/
theorem exec_keeps_stackOk (hstack : s.StackOk) (hlow : 2 ≤ s.pc.toNat) (hhigh : s.pc.toNat ≤ Config.memSize) :
    t.StackOk := by
  obtain ⟨hlen, hentries⟩ := hstack
  cases i with
  | call nnn =>
    obtain ⟨hroom, rfl⟩ := exec_call_next_iff.1 h
    refine ⟨List.length_append.trans_le (Nat.succ_le_of_lt hroom), fun a ha => ?_⟩
    rcases List.mem_append.1 ha with ha | ha
    · exact hentries a ha
    · rw [List.mem_singleton.1 ha]
      exact ⟨hlow, hhigh⟩
  | ret =>
    obtain ⟨l, a, hl, rfl⟩ := exec_ret_next_iff.1 h
    rw [hl] at hlen hentries
    have hshorter : l.length ≤ (l ++ [a]).length := List.length_append ▸ Nat.le_add_right _ _
    exact ⟨hshorter.trans hlen, fun b hb => hentries b (List.mem_append_left _ hb)⟩
  | _ => rw [exec_writes h]; exact ⟨hlen, hentries⟩

/-- PC never exceeds the farthest jump: an address, an address plus a register, a stack entry, or a skip from inside
memory (R24, R103). -/
theorem exec_pc_le (hstack : s.StackOk) (hpc : s.pc.toNat ≤ Config.memSize) : t.pc.toNat ≤ 0x10FE := by
  cases i with
  | jp nnn => cases h; exact (toNat_extendAddr_lt nnn).le.trans (by decide)
  | call nnn => obtain ⟨-, rfl⟩ := exec_call_next_iff.1 h; exact (toNat_extendAddr_lt nnn).le.trans (by decide)
  | jpV0 nnn =>
    cases h
    have haddr : nnn.toNat < 4096 := nnn.isLt
    have hbyte := s.getV_lt 0
    rw [jump_pc, toNat_extendAddr_add_extendByte]
    omega
  | ret =>
    obtain ⟨l, a, hl, rfl⟩ := exec_ret_next_iff.1 h
    obtain ⟨-, ha⟩ := hstack.2 a (by simp [hl])
    exact ha.trans (by decide)
  | seImm | sneImm | seReg | sneReg | skp | sknp => cases h; exact (skipIf_pc_le hpc _).trans (by decide)
  | _ => rw [exec_writes h]; exact hpc.trans (by decide)

/-- No instruction halts the machine (R30). -/
theorem exec_not_halted (hmode : s.mode ≠ .halted) : t.mode ≠ .halted := by
  cases i with
  | ldVxK x => cases h; exact Mode.noConfusion
  | _ => rw [exec_writes h]; exact hmode

/-- The invariant, for a body that begins inside memory and in a machine that is not halted. -/
theorem exec_keeps_inv (hinv : s.Inv) (hmode : s.mode ≠ .halted) (hlow : 2 ≤ s.pc.toNat)
    (hhigh : s.pc.toNat ≤ Config.memSize) : t.Inv :=
  ⟨exec_keeps_wf h hinv.memory, exec_keeps_stackOk h hinv.stack hlow hhigh, exec_pc_le h hinv.stack hhigh,
    fun hhalt => absurd hhalt (exec_not_halted h hmode)⟩
end bodies

/-! ### Every event keeps the invariant -/

theorem stepCycle_keeps_inv {s t : State} (hinv : s.Inv) (h : stepCycle s = .next t) : t.Inv := by
  by_cases hmode : s.mode = .ready
  case neg => rw [stepCycle_waiting hmode] at h; cases h; exact hinv
  rw [stepCycle_ready hmode] at h
  cases hfetch : fetch s with
  | error f => rw [hfetch] at h; cases h
  | ok w =>
    have hin : s.pc.toNat + 1 < 4096 := (fetch_ok.1 hfetch).1
    have hpc : (s.pc + 2).toNat = s.pc.toNat + 2 := toNat_add_two (by omega)
    have hlow : 2 ≤ s.advance.pc.toNat := by rw [advance_pc, hpc]; omega
    have hhigh : s.advance.pc.toNat ≤ Config.memSize := by rw [advance_pc, hpc]; exact hin
    have hready : s.mode ≠ .halted := by rw [hmode]; exact Mode.noConfusion
    have hadvance : s.advance.Inv :=
      ⟨hinv.memory, hinv.stack, hhigh.trans (by decide), fun hhalt => absurd hhalt hready⟩
    simp only [hfetch] at h
    cases hw : decodeWord w with
    | ok i => rw [hw] at h; exact exec_keeps_inv h hadvance hready hlow hhigh
    | error e => rw [hw] at h; cases h; exact hadvance

/-- A tick keeps the invariant: it does nothing in a halted machine that is as reset left it (R207). -/
theorem tick_keeps_inv {s : State} (hinv : s.Inv) : s.tick.Inv := by
  refine ⟨hinv.memory, hinv.stack, hinv.pc, fun hhalt => ?_⟩
  rw [resetOp_tick, ← hinv.halted hhalt, hinv.halted hhalt, tick_resetOp]

/-- A key press keeps the invariant: it is dropped, or leaves a ready machine (R198). -/
theorem keyPress_keeps_inv {s : State} (hinv : s.Inv) (k : Key) : (s.keyPress k).Inv := by
  unfold State.keyPress
  split
  · exact ⟨hinv.memory, hinv.stack, hinv.pc, nofun⟩
  · exact hinv
  · exact hinv

/-- `Load` leaves a state that meets the invariant, whatever it met: an image that fits lies inside memory (R238). -/
theorem loadState_inv (s : State) (bytes : List Byte) : (s.loadState bytes).Inv := by
  have hreset := resetOp_inv s
  unfold State.loadState
  split
  case isTrue => exact hreset
  case isFalse hfits =>
    exact ⟨wf_writeBytes hreset.memory (by simp [TooLarge] at hfits ⊢; omega), hreset.stack, hreset.pc, nofun⟩

/-- The key levels are no part of the invariant. -/
theorem setKeys_keeps_inv {s : State} (hinv : s.Inv) (levels : BitVec Config.numKeys) :
    State.Inv { s with keys := levels } := by
  refine ⟨hinv.memory, hinv.stack, hinv.pc, fun hhalt => ?_⟩
  rw [resetOp_setKeys, ← hinv.halted hhalt]

/-- The schedule is no part of the invariant. -/
theorem setSchedule_keeps_inv {s : State} (hinv : s.Inv) (rest : List Event) :
    State.Inv { s with schedule := rest } := by
  refine ⟨hinv.memory, hinv.stack, hinv.pc, fun hhalt => ?_⟩
  rw [resetOp_setSchedule, ← hinv.halted hhalt]

/-- An event that raises nothing leaves what its operation answers. -/
theorem performed_of_next {e : Event} {s t : State} (h : perform e s = .next t) : performed e s = t := by
  cases e with
  | load bytes =>
    simp only [perform, loadCycle] at h
    split at h
    · cases h
    · cases h; rfl
  | _ => simp only [performed, h]

/-- An event that raises, other than `Load`, leaves the state it met (R202). -/
theorem performed_of_fault {e : Event} {s : State} {f : Fault} (he : ∀ bytes, e ≠ .load bytes)
    (h : perform e s = .fault f) : performed e s = s := by
  cases e with
  | load bytes => exact absurd rfl (he bytes)
  | _ => simp only [performed, h]

/-- Every event keeps the invariant, whether or not it raises. -/
theorem performed_keeps_inv {s : State} (hinv : s.Inv) (e : Event) : (performed e s).Inv := by
  cases e with
  | step =>
    cases h : perform .step s with
    | next t => rw [performed_of_next h]; exact stepCycle_keeps_inv hinv h
    | fault f => rw [performed_of_fault (e := .step) nofun h]; exact hinv
    | refused q => exact absurd h (stepCycle_not_refused s q)
  | tick => exact tick_keeps_inv hinv
  | keyPress k => exact keyPress_keeps_inv hinv k
  | reset => exact resetOp_inv s
  | load bytes => exact loadState_inv s bytes
  | setKeys levels => exact setKeys_keeps_inv hinv levels

/-- Settles O52: a step performs an event, and every event keeps the invariant. -/
theorem stepKeepsInvariant : Obligations.StepKeepsInvariant := by
  intro s t hinv hstep
  obtain ⟨e, rest, hperform⟩ := exists_perform_of_step s
  rw [← performed_of_next (hperform.symm.trans hstep)]
  exact performed_keeps_inv (setSchedule_keeps_inv hinv rest) e

/-- Settles O53, by induction on the events. -/
theorem everyDriverSequenceKeepsInvariant : Obligations.EveryDriverSequenceKeepsInvariant := by
  intro events
  induction events with
  | nil => exact fun s hinv => hinv
  | cons e events ih => exact fun s hinv => ih (performed e s) (performed_keeps_inv hinv e)

end Sys2Proof.Machine
end

section
/-! PROOFS. The statements of 43_alu.md: the logic operations (R124 to R126), the additions and subtractions with a flag
(R127, R128, R130), the shifts (R129, R131) and CXNN (R132). -/

namespace Sys2Proof.Machine

/-! ### The logic operations -/

theorem exec_or (x y : Reg) (s : State) : exec (.or x y) s = .next (s.setV x (s.getV x ||| s.getV y)) := rfl
theorem exec_and (x y : Reg) (s : State) : exec (.and x y) s = .next (s.setV x (s.getV x &&& s.getV y)) := rfl
theorem exec_xor (x y : Reg) (s : State) : exec (.xor x y) s = .next (s.setV x (s.getV x ^^^ s.getV y)) := rfl

/-- Settles O21: each body is one register write, of the bitwise operation on VX and VY. -/
theorem logicOperationsLeaveFlag : Obligations.LogicOperationsLeaveFlag := by
  refine fun x y s => ⟨⟨_, exec_or x y s, onlyRegisters_setV s x _, fun k => ?_⟩,
    ⟨_, exec_and x y s, onlyRegisters_setV s x _, fun k => ?_⟩,
    ⟨_, exec_xor x y s, onlyRegisters_setV s x _, fun k => ?_⟩⟩ <;> rw [getV_setV_same]
  · exact BitVec.getLsbD_or
  · exact BitVec.getLsbD_and
  · exact BitVec.getLsbD_xor

/-! ### A result and a flag -/

/-- VF holds the flag, also where it is the destination (R26). -/
@[simp] theorem getV_writeFlagged_flag (s : State) (x : Reg) (r f : Byte) : (s.writeFlagged x r f).getV VF = f := by
  rw [getV_writeFlagged, if_pos rfl]

/-- A destination other than VF holds the result (R26). -/
theorem getV_writeFlagged_result (s : State) {x : Reg} (hx : x ≠ VF) (r f : Byte) :
    (s.writeFlagged x r f).getV x = r := by
  rw [getV_writeFlagged, if_neg hx, if_pos rfl]

/-- What a flag-writing instruction leaves, in numbers: the flag in VF, the result in any other destination, and every
other register and item as it was (R25, R26). -/
theorem writeFlagged_spec (s : State) (x : Reg) {r f : Byte} {m n : Nat} (hf : f.toNat = n) (hr : r.toNat = m) :
    ((s.writeFlagged x r f).getV VF).toNat = n ∧ (x ≠ VF → ((s.writeFlagged x r f).getV x).toNat = m) ∧
      OnlyRegisters [x, VF] s (s.writeFlagged x r f) := by
  refine ⟨?_, fun hx => ?_, onlyRegisters_writeFlagged s x r f⟩
  · rw [getV_writeFlagged_flag, hf]
  · rw [getV_writeFlagged_result s hx, hr]

/-! ### Addition and subtraction -/

theorem exec_addReg (x y : Reg) (s : State) : exec (.addReg x y) s =
    .next (s.writeFlagged x (s.getV x + s.getV y) (carryFlag (s.getV x) (s.getV y))) := rfl
theorem exec_sub (x y : Reg) (s : State) : exec (.sub x y) s =
    .next (s.writeFlagged x (s.getV x - s.getV y) (greaterFlag (s.getV x) (s.getV y))) := rfl
theorem exec_subn (x y : Reg) (s : State) : exec (.subn x y) s =
    .next (s.writeFlagged x (s.getV y - s.getV x) (greaterFlag (s.getV y) (s.getV x))) := rfl

theorem carryFlag_toNat (a b : Byte) : (carryFlag a b).toNat = if a.toNat + b.toNat > 255 then 1 else 0 := by
  simp only [carryFlag, flag_toNat, decide_eq_true_eq, gt_iff_lt]

theorem greaterFlag_toNat (a b : Byte) : (greaterFlag a b).toNat = if a.toNat > b.toNat then 1 else 0 := by
  simp only [greaterFlag, flag_toNat, decide_eq_true_eq, gt_iff_lt]

/-- The difference of two bytes, modulo 256 (R128). -/
theorem toNat_sub_byte (a b : Byte) : (a - b).toNat = (256 + a.toNat - b.toNat) % 256 := by
  have hb : b.toNat < 256 := b.isLt
  rw [BitVec.toNat_sub]
  omega

/-- Settles O22: the body writes the sum and then the carry. -/
theorem addWritesSumAndCarry : Obligations.AddWritesSumAndCarry := fun x y s =>
  ⟨_, exec_addReg x y s, writeFlagged_spec s x (carryFlag_toNat _ _) (BitVec.toNat_add _ _)⟩

/-- Settles O23: each body writes its difference and then the flag of its operands. -/
theorem subtractionsWriteDifferenceAndFlag : Obligations.SubtractionsWriteDifferenceAndFlag := fun x y s =>
  ⟨⟨_, exec_sub x y s, writeFlagged_spec s x (greaterFlag_toNat _ _) (toNat_sub_byte _ _)⟩,
    ⟨_, exec_subn x y s, writeFlagged_spec s x (greaterFlag_toNat _ _) (toNat_sub_byte _ _)⟩⟩

/-! ### Shifts -/

/-- The source that `SHIFT_SRC` names (R129). -/
theorem shiftSource_eq (s : State) (p : Config.ShiftSrc) (x y : Reg) :
    s.shiftSource p x y = s.getV (if p = .vx then x else y) := by
  cases p <;> rfl

/-- The bit shifted out on the right, as a number (R129). -/
theorem shiftRightFlag_toNat (b : Byte) : (shiftRightFlag b).toNat = b.toNat % 2 := by
  rw [shiftRightFlag, flag_toNat, BitVec.getLsbD, Nat.testBit_zero]
  simp only [decide_eq_true_eq]
  split <;> omega

/-- The bit shifted out on the left, as a number (R131). -/
theorem shiftLeftFlag_toNat (b : Byte) : (shiftLeftFlag b).toNat = b.toNat / 128 := by
  have hb : b.toNat < 256 := b.isLt
  rw [shiftLeftFlag, flag_toNat, BitVec.getLsbD, Nat.testBit_eq_decide_div_mod_eq]
  simp only [decide_eq_true_eq]
  split <;> omega

theorem toNat_shiftRight_one (b : Byte) : (b >>> 1).toNat = b.toNat / 2 := by
  rw [BitVec.toNat_ushiftRight, Nat.shiftRight_one]

theorem toNat_shiftLeft_one (b : Byte) : (b <<< 1).toNat = b.toNat * 2 % 256 := by
  rw [BitVec.toNat_shiftLeft, Nat.shiftLeft_eq, pow_one]

/-- Settles O24: each body writes the shifted source and then the bit shifted out, for either source. -/
theorem shiftsMoveOneBitIntoFlag : Obligations.ShiftsMoveOneBitIntoFlag :=
  ⟨fun _ _ _ => ⟨rfl, rfl⟩,
    fun p x y s => ⟨_, shiftSource_eq s p x y,
      writeFlagged_spec s x (shiftRightFlag_toNat _) (toNat_shiftRight_one _)⟩,
    fun p x y s => ⟨_, shiftSource_eq s p x y,
      writeFlagged_spec s x (shiftLeftFlag_toNat _) (toNat_shiftLeft_one _)⟩⟩

/-! ### The masked random byte -/

/-- Every word of family C is a masked random byte (R75). -/
theorem decodeWord_rnd {w : Word} (h : family w = 0xC#4) : decodeWord w = .ok (.rnd (fieldX w) (fieldNN w)) :=
  decodeWord_of_decodeOpcode (by simp only [decodeOpcode, h])

/-- VX after CXNN (R132). -/
theorem getV_writeMasked (s : State) (x : Reg) (nn r : Byte) : (s.writeMasked x nn r).getV x = r &&& nn :=
  getV_setV_same s x (r &&& nn)

/-- Settles O25: the decoder by family; the body is one register write, of the draw masked by NN. -/
theorem randomIsMasked : Obligations.RandomIsMasked := by
  refine ⟨fun w h => decodeWord_rnd (family_of_masked h), fun x nn s => rfl, fun x nn r s => ?_⟩
  rw [getV_writeMasked]
  refine ⟨fun k => BitVec.getLsbD_and, ?_, fun hnn => ?_, fun hnn => ?_, onlyRegisters_setV s x (r &&& nn)⟩
  · rw [BitVec.and_assoc, BitVec.and_not_self]; exact BitVec.and_zero
  · rw [hnn]; exact BitVec.and_zero
  · rw [hnn]; exact BitVec.and_allOnes

end Sys2Proof.Machine
end

section
/-! PROOFS. The statement of 44_index.md on FX1E (R141) and FX29 (R142). -/

namespace Sys2Proof.Machine

theorem exec_addI (x : Reg) (s : State) : exec (.addI x) s = .next (s.setI (s.i + extendByte (s.getV x))) := rfl
theorem exec_ldF (x : Reg) (s : State) : exec (.ldF x) s = .next (s.setI (glyphAddr (s.getV x))) := rfl

/-- The glyph of the largest byte still has an address in 16 bits (R142). -/
theorem glyphAddr_toNat (d : Byte) : (glyphAddr d).toNat = 5 * d.toNat := by
  have hd : d.toNat < 256 := d.isLt
  rw [glyphAddr, BitVec.toNat_ofNat, Config.fontBase, Config.glyphStride]
  omega

/-- Settles O27: each body is one write of I. -/
theorem indexArithmetic : Obligations.IndexArithmetic := by
  refine fun x s => ⟨⟨_, exec_addI x s, ?_, setI_frame s _⟩, ⟨_, exec_ldF x s, glyphAddr_toNat _, setI_frame s _⟩⟩
  rw [setI_i, ← toNat_extendByte]
  exact BitVec.toNat_add _ _

end Sys2Proof.Machine
end

section
/-! PROOFS. The statements of 46_keys.md: EX9E and EXA1 (R160, R161), who reads the key levels (10_state.md R39), and
the key press that nobody awaits (60_exceptions.md R198). -/

namespace Sys2Proof.Machine

/-! ### The key skips -/

/-- EX9E skips exactly when key VX is down (R160). -/
theorem exec_skp (x : Reg) (s : State) : exec (.skp x) s =
    .next { s with pc := if s.keyDown (s.getV x) then s.pc + 2 else s.pc } :=
  congrArg Host.Outcome.next (skipIf_eq s _)

/-- EXA1 skips exactly when key VX is not down (R161). -/
theorem exec_sknp (x : Reg) (s : State) : exec (.sknp x) s =
    .next { s with pc := if s.keyDown (s.getV x) then s.pc else s.pc + 2 } := by
  refine congrArg Host.Outcome.next ((skipIf_eq s _).trans ?_)
  cases s.keyDown (s.getV x) <;> rfl

/-- A byte that is the index of a key reads its level (R14). -/
theorem keyDown_of_key (s : State) {b : Byte} {k : Key} (h : b.toNat = k.val) :
    s.keyDown b = s.keys.getLsbD k.val := by
  rw [State.keyDown, h, if_pos k.isLt]

/-- A byte above 15 names no key, and is not down (R14). -/
theorem keyDown_above (s : State) {b : Byte} (h : 15 < b.toNat) : s.keyDown b = false :=
  if_neg (Nat.not_lt.2 h)

/-- Settles O31: the two bodies as skips on the level of key VX, and the level by the index. -/
theorem keySkipsFollowLevels : Obligations.KeySkipsFollowLevels := by
  intro x s
  rw [exec_skp, exec_sknp]
  refine ⟨fun k hk => ?_, fun habove => ?_⟩
  · rw [keyDown_of_key s hk]
    exact ⟨rfl, rfl⟩
  · rw [keyDown_above s habove]
    exact ⟨rfl, rfl⟩

/-! ### Nobody else reads the key levels -/

/-- The state with other key levels. -/
def State.setKeys (s : State) (levels : BitVec Config.numKeys) : State := { s with keys := levels }

theorem loadRegisters_setKeys (s : State) (levels : BitVec Config.numKeys) (base n : Nat) :
    (s.setKeys levels).loadRegisters base n = (s.loadRegisters base n).setKeys levels := by
  induction n with
  | zero => rfl
  | succ k ih => rw [State.loadRegisters, ih]; rfl

theorem skipIf_setKeys (s : State) (levels : BitVec Config.numKeys) (c : Bool) :
    (s.setKeys levels).skipIf c = (s.skipIf c).setKeys levels := by
  cases c <;> rfl

/-- An instruction other than EX9E and EXA1, run with other key levels, answers the same but for them (R39): a call and
a return by the stack, an access by its range, and every other body only writes fields. -/
theorem exec_setKeys (i : Instr) (s : State) (levels : BitVec Config.numKeys) (h : ∀ x, i ≠ .skp x ∧ i ≠ .sknp x) :
    exec i (s.setKeys levels) = Result.onNext (·.setKeys levels) (exec i s) := by
  cases i with
  | skp | sknp => simp at h
  | ret =>
    rcases Nat.eq_zero_or_pos s.sp with hempty | hpos
    · rw [exec_ret_fault hempty]; exact exec_ret_fault hempty
    · obtain ⟨l, a, hstack⟩ := stack_eq_concat hpos
      rw [exec_ret_next hstack]; exact exec_ret_next hstack
  | call nnn =>
    rcases Nat.lt_or_ge s.sp 16 with hroom | hfull
    · rw [exec_call_next hroom]; exact exec_call_next (s := s.setKeys levels) hroom nnn
    · rw [exec_call_fault hfull]; exact exec_call_fault (s := s.setKeys levels) hfull nnn
  | seImm | sneImm | seReg | sneReg => exact congrArg Host.Outcome.next (skipIf_setKeys s levels _)
  | drw | ldB | stRegs => exact accessing_onNext rfl
  | ldRegs => exact accessing_onNext (loadRegisters_setKeys s levels _ _)
  | _ => rfl

/-- Settles O37: instruction by instruction. -/
theorem onlyKeySkipsReadLevels : Obligations.OnlyKeySkipsReadLevels := exec_setKeys

/-! ### The dropped key press -/

/-- A key press that nobody awaits is dropped (R198). -/
theorem keyPress_dropped {s : State} (h : ∀ x, s.mode ≠ .awaitingKey x) (k : Key) : s.keyPress k = s := by
  unfold State.keyPress
  split
  next x hwait => exact absurd hwait (h x)
  · rfl
  · rfl

/-- Settles O33: a key press raises nothing, and its one write needs a wait. -/
theorem keyPressWithoutWaitIsDropped : Obligations.KeyPressWithoutWaitIsDropped := fun k _ =>
  ⟨rfl, fun h => keyPress_dropped h k⟩

end Sys2Proof.Machine
end

section
/-! PROOFS. The statements of 47_timers.md: FX07, FX15 and FX18 (R170 to R172), and the ticks (60_exceptions.md R207,
R208). -/

namespace Sys2Proof.Machine

theorem exec_ldVxDt (x : Reg) (s : State) : exec (.ldVxDt x) s = .next (s.setV x s.dt) := rfl
theorem exec_ldDtVx (x : Reg) (s : State) : exec (.ldDtVx x) s = .next { s with dt := s.getV x } := rfl
theorem exec_ldStVx (x : Reg) (s : State) : exec (.ldStVx x) s = .next { s with st := s.getV x } := rfl

/-- Settles O34: each body is one write; the tone is on while ST is not 0. -/
theorem timerCopies : Obligations.TimerCopies := fun x s =>
  ⟨⟨_, exec_ldVxDt x s, getV_setV_same s x s.dt, onlyRegisters_setV s x s.dt⟩, exec_ldDtVx x s,
    ⟨_, exec_ldStVx x s, rfl, bne_iff_ne, rfl⟩⟩

/-- `n` ticks count both timers down `n` times and write nothing else, in any mode (R207). -/
theorem drive_ticks (n : Nat) (s : State) : drive (List.replicate n .tick) s =
    { s with dt := countDown^[n] s.dt, st := countDown^[n] s.st } := by
  induction n generalizing s with
  | zero => rfl
  | succ n ih => exact ih s.tick

/-- A timer after `n` ticks, as a number (R208). -/
theorem iterate_countDown_toNat (n : Nat) (t : Byte) : (countDown^[n] t).toNat = t.toNat - n := by
  induction n generalizing t with
  | zero => rfl
  | succ n ih => rw [Function.iterate_succ_apply, ih, countDown_toNat]; omega

/-- Settles O35, by induction on the ticks. -/
theorem ticksCountDown : Obligations.TicksCountDown := fun n s =>
  ⟨_, drive_ticks n s, iterate_countDown_toNat n s.dt, iterate_countDown_toNat n s.st, rfl⟩

end Sys2Proof.Machine
end

section
/-! PROOFS. The statements of 45_display.md on DXYN (R152): one draw, and two draws of the same sprite (log 33). -/

namespace Sys2Proof.Machine

/-! ### One draw -/

/-- An access outside memory raises `OutOfBoundsAccess`, by the table of R195. -/
theorem exec_outOfBounds {i : Instr} {s : State} (h : ¬ InMemory s.base (accessedBytes i)) :
    exec i s = .fault .outOfBoundsAccess :=
  (exec_fault_iff i s .outOfBoundsAccess).2 h

/-- The state that DXYN leaves when its sprite is in memory: the display drawn on, and the collision in VF (R152). -/
def State.drawn (s : State) (x y : Reg) (n : Fin 16) : State :=
  State.setV { s with fb := (s.draw x y n.val).1 } VF (flag (s.draw x y n.val).2)

/-- DXYN completes exactly when its sprite is in memory (R152). -/
theorem exec_drw_next_iff {x y : Reg} {n : Fin 16} {s t : State} :
    exec (.drw x y n) s = .next t ↔ InMemory s.base n.val ∧ s.drawn x y n = t := accessing_next

/-- DXYN changes no register but VF (R152). -/
theorem getV_drawn_other (s : State) (x y : Reg) (n : Fin 16) {r : Reg} (hr : r ≠ VF) :
    (s.drawn x y n).getV r = s.getV r :=
  getV_setV_other _ VF _ hr

/-- A flag is 1 exactly when its condition holds (R25). -/
theorem flag_eq_one_iff {b : Bool} : flag b = 1 ↔ b = true := by
  cases b <;> decide

section drawn
variable {s : State} {x y : Reg} {n : Fin 16} {px py : Nat}

/-- Every pixel is inverted exactly when a 1 bit of the sprite lands on it (R152). -/
theorem pixel_drawn (hx : px < Config.displayW) (hy : py < Config.displayH) :
    (s.drawn x y n).pixel px py = true ↔ ¬ (s.pixel px py = true ↔ SpriteCovers s x y n px py) :=
  have hn : n.val ≤ 32 := n.isLt.le.trans (by decide)
  (drawRows_spec (s.fb, false) s.mem s.base (s.getV x).toNat (s.getV y).toNat n.val hn).1 px py hx hy

/-- A lit pixel goes dark exactly when a 1 bit of the sprite lands on it (R152). -/
theorem pixel_drawn_dark_iff (hx : px < Config.displayW) (hy : py < Config.displayH) (hlit : s.pixel px py = true) :
    (s.drawn x y n).pixel px py = false ↔ SpriteCovers s x y n px py := by
  rw [← Bool.not_eq_true, pixel_drawn hx hy, hlit, not_not, eq_self, true_iff]

/-- DXYN collides exactly when a 1 bit of the sprite lands on a lit pixel (R152). -/
theorem getV_drawn_flag : (s.drawn x y n).getV VF = 1 ↔ ∃ px py, px < Config.displayW ∧ py < Config.displayH ∧
    s.pixel px py = true ∧ SpriteCovers s x y n px py := by
  have hn : n.val ≤ 32 := n.isLt.le.trans (by decide)
  have hcollides :=
    (drawRows_spec (s.fb, false) s.mem s.base (s.getV x).toNat (s.getV y).toNat n.val hn).2
  rw [State.drawn, getV_setV_same, flag_eq_one_iff]
  exact hcollides.trans (or_iff_right Bool.false_ne_true)
end drawn

/-- Settles O29: the draw pixel by pixel, and its collision as a pixel that went dark. -/
theorem drawXorsSpriteAndReportsCollision : Obligations.DrawXorsSpriteAndReportsCollision := by
  intro x y n s
  refine ⟨fun hin => ⟨s.drawn x y n, exec_drw_next_iff.2 ⟨hin, rfl⟩, fun px py => pixel_drawn, ?_, ?_,
    fun r hr => getV_drawn_other s x y n (List.ne_of_not_mem_cons hr), fun _ => rfl, rfl⟩, fun hpos hout => ?_⟩
  · rw [State.drawn, getV_setV_same]
    cases (s.draw x y n.val).2
    · exact .inl rfl
    · exact .inr rfl
  · rw [getV_drawn_flag]
    refine exists₂_congr fun px py => and_congr_right fun hx => and_congr_right fun hy => and_congr_right fun hlit => ?_
    exact (pixel_drawn_dark_iff hx hy hlit).symm
  · exact exec_outOfBounds ((not_inMemory_accessedBytes_iff _ s).2 (.inl ⟨x, y, n, rfl, hpos, hout⟩))

/-! ### Two draws of the same sprite -/

/-- Some pixel is covered exactly when the sprite has a 1 bit: every bit lands somewhere (R152). -/
theorem exists_covered_iff {s : State} {x y : Reg} {n : Fin 16} :
    (∃ px py, px < Config.displayW ∧ py < Config.displayH ∧ SpriteCovers s x y n px py) ↔
      ∃ r c, r < n.val ∧ c < 8 ∧ (s.readByte (s.i.toNat + r)).getLsbD (7 - c) = true := by
  constructor
  · rintro ⟨px, py, -, -, r, c, hr, hc, hbit, -, -⟩
    exact ⟨r, c, hr, hc, hbit⟩
  · rintro ⟨r, c, hr, hc, hbit⟩
    exact ⟨_, _, Nat.mod_lt _ (by decide), Nat.mod_lt _ (by decide), r, c, hr, hc, hbit, rfl, rfl⟩

section twice
variable {s : State} {x y : Reg} {n : Fin 16} {px py : Nat} (hxF : x ≠ VF) (hyF : y ≠ VF)
include hxF hyF

/-- The second draw puts the sprite where the first did, for the first leaves its coordinates, I and memory alone. -/
theorem spriteCovers_drawn : SpriteCovers (s.drawn x y n) x y n px py ↔ SpriteCovers s x y n px py := by
  rw [SpriteCovers, getV_drawn_other s x y n hxF, getV_drawn_other s x y n hyF]
  rfl

/-- Two draws restore every pixel (R152). -/
theorem pixel_drawn_drawn (hx : px < Config.displayW) (hy : py < Config.displayH) :
    ((s.drawn x y n).drawn x y n).pixel px py = s.pixel px py := by
  rw [Bool.eq_iff_iff, pixel_drawn hx hy, pixel_drawn hx hy, spriteCovers_drawn hxF hyF]
  tauto

/-- The second draw collides exactly when the sprite covers a pixel that was unlit before the first (log 33). -/
theorem getV_drawn_drawn_flag : ((s.drawn x y n).drawn x y n).getV VF = 1 ↔ ∃ px py, px < Config.displayW ∧
    py < Config.displayH ∧ s.pixel px py = false ∧ SpriteCovers s x y n px py := by
  rw [getV_drawn_flag]
  refine exists₂_congr fun px py => and_congr_right fun hx => and_congr_right fun hy => ?_
  rw [spriteCovers_drawn hxF hyF, pixel_drawn hx hy, ← Bool.not_eq_true]
  tauto
end twice

/-- Settles O30: the two draws pixel by pixel. -/
theorem drawingTwiceRestoresDisplay : Obligations.DrawingTwiceRestoresDisplay := by
  intro x y n s t u hxF hyF hfirst hsecond
  obtain ⟨-, rfl⟩ := exec_drw_next_iff.1 hfirst
  obtain ⟨-, rfl⟩ := exec_drw_next_iff.1 hsecond
  refine ⟨frameBuffer_ext fun px py => pixel_drawn_drawn hxF hyF, getV_drawn_drawn_flag hxF hyF, fun hclear => ?_⟩
  rw [getV_drawn_drawn_flag hxF hyF, ← exists_covered_iff]
  refine exists₂_congr fun px py => and_congr_right fun hx => and_congr_right fun hy => ?_
  exact and_iff_right (hclear px py hx hy)

end Sys2Proof.Machine
end

section
/-! PROOFS. The statements of 48_memory_ops.md: FX33, FX55 and FX65 (R180 to R182), and the fetch of stored bytes
(20_memory.md R62). -/

namespace Sys2Proof.Machine

/-! ### What is read after a store at I -/

/-- Every byte after a store at I: the stored one where there is one, and the old one elsewhere (R51). -/
theorem readByte_storeAtI {s : State} (hwf : s.mem.wf) {bs : List Byte} (hin : s.base + bs.length ≤ Config.memSize)
    (a : Nat) : (s.storeAtI bs).readByte a =
      if a < s.i.toNat then s.readByte a else bs.getD (a - s.i.toNat) (s.readByte a) := by
  split
  case isTrue hbelow => exact read_writeBytes_outside s.mem (.inl hbelow)
  case isFalse habove =>
    obtain ⟨k, rfl⟩ := Nat.exists_eq_add_of_le (Nat.not_lt.1 habove)
    rw [Nat.add_sub_cancel_left, List.getD_eq_getElem?_getD]
    rcases Nat.lt_or_ge k bs.length with hk | hk
    · rw [List.getElem?_eq_getElem hk]
      exact read_writeBytes_inside hwf hin hk
    · rw [List.getElem?_eq_none hk]
      exact read_writeBytes_outside s.mem (.inr (Nat.add_le_add_left hk _))

/-- A number no larger than a byte keeps its value as a byte, so the digits of a byte do (R180). -/
theorem toNat_ofNat_of_le {b : Byte} {m : Nat} (h : m ≤ b.toNat) : (BitVec.ofNat 8 m).toNat = m := by
  rw [BitVec.toNat_ofNat]
  exact Nat.mod_eq_of_lt (h.trans_lt b.isLt)

/-- Every byte after FX33, as a number (R180). -/
theorem readByte_after_digits {x : Reg} {s t : State} (hwf : s.mem.wf) (h : exec (.ldB x) s = .next t) (a : Nat) :
    (t.readByte a).toNat = byteAfterDigits x s a := by
  obtain ⟨hin, rfl⟩ := accessing_next.1 h
  have hfits : s.base + (decimalDigits (s.getV x)).length ≤ Config.memSize := hin.resolve_left (by decide)
  rw [readByte_storeAtI hwf hfits, byteAfterDigits]
  split
  case isTrue hbelow => rw [if_neg (by omega), if_neg (by omega), if_neg (by omega)]
  case isFalse habove =>
    obtain ⟨k, rfl⟩ := Nat.exists_eq_add_of_le (Nat.not_lt.1 habove)
    rw [Nat.add_sub_cancel_left]
    match k with
    | 0 =>
      rw [if_pos (Nat.add_zero _)]
      exact toNat_ofNat_of_le (Nat.div_le_self _ _)
    | 1 =>
      rw [if_neg (by omega), if_pos rfl]
      exact toNat_ofNat_of_le ((Nat.mod_le _ _).trans (Nat.div_le_self _ _))
    | 2 =>
      rw [if_neg (by omega), if_neg (by omega), if_pos rfl]
      exact toNat_ofNat_of_le (Nat.mod_le _ _)
    | k + 3 =>
      rw [if_neg (by omega), if_neg (by omega), if_neg (by omega)]
      rfl

/-- The registers that FX55 stores, by place (R181). -/
theorem getD_registers (s : State) {n k : Nat} (hn : n ≤ 16) (d : Byte) :
    (s.registers n).getD k d = if k < n then s.getV (Fin.ofNat 16 k) else d := by
  rw [List.getD_eq_getElem?_getD]
  split
  case isTrue hk =>
    have hlen : k < (s.registers n).length := by rw [length_registers s hn]; exact hk
    rw [List.getElem?_eq_getElem hlen, Option.getD_some, getElem_registers s hn hk hlen]
    exact congrArg s.getV (Fin.ext (Nat.mod_eq_of_lt (hk.trans_le hn)).symm)
  case isFalse hk => rw [List.getElem?_eq_none (by rw [length_registers s hn]; omega), Option.getD_none]

/-- Every byte after FX55 (R181). -/
theorem readByte_after_dump {x : Reg} {s t : State} (hwf : s.mem.wf) (h : exec (.stRegs x) s = .next t) (a : Nat) :
    t.readByte a = if s.i.toNat ≤ a ∧ a ≤ s.i.toNat + x.val then s.getV (Fin.ofNat 16 (a - s.i.toNat))
      else s.readByte a := by
  obtain ⟨hin, rfl⟩ := accessing_next.1 h
  have hlen : (s.registers (x.val + 1)).length = x.val + 1 := length_registers s (reg_lt x)
  rw [readByte_storeAtI hwf (hlen.symm ▸ hin.resolve_left (Nat.succ_ne_zero _)), getD_registers s (reg_lt x)]
  split
  case isTrue hbelow => rw [if_neg (by omega)]
  case isFalse habove => exact if_congr (by omega) rfl rfl

/-! ### FX33 -/

/-- Settles O38: the byte at each of the three addresses, and the frame of every instruction. -/
theorem decimalDigitsStored : Obligations.DecimalDigitsStored := by
  refine fun x s hwf => ⟨fun hin => ?_, fun hout => ?_⟩
  · have h : exec (.ldB x) s = .next (s.storeAtI (decimalDigits (s.getV x))) :=
      accessing_next.2 ⟨.inr hin, rfl⟩
    refine ⟨_, h, ?_, ?_, ?_, exec_memory h, rfl⟩ <;> rw [readByte_after_digits hwf h] <;> simp [byteAfterDigits]
  · exact exec_outOfBounds ((not_inMemory_accessedBytes_iff _ s).2 (.inr (.inl ⟨x, rfl, hout⟩)))

/-! ### FX55 and FX65 -/

/-- Register r after FX55 lies at I + r (R181). -/
theorem readByte_dumped {x r : Reg} {s t : State} (hwf : s.mem.wf) (h : exec (.stRegs x) s = .next t)
    (hr : r.val ≤ x.val) : t.readByte (s.i.toNat + r.val) = s.getV r := by
  rw [readByte_after_dump hwf h, if_pos ⟨Nat.le_add_right _ _, Nat.add_le_add_left hr _⟩, Nat.add_sub_cancel_left]
  exact congrArg s.getV (Fin.ext (Nat.mod_eq_of_lt (reg_lt r)))

/-- Settles O39: the register at each address, and the frame of every instruction. -/
theorem registersStored : Obligations.RegistersStored := by
  refine fun x s hwf => ⟨fun hin => ?_, fun hout => ?_⟩
  · have h : exec (.stRegs x) s = .next (s.storeAtI (s.registers (x.val + 1))) := accessing_next.2 ⟨.inr hin, rfl⟩
    exact ⟨_, h, fun r hr => readByte_dumped hwf h hr, exec_memory h, rfl⟩
  · exact exec_outOfBounds ((not_inMemory_accessedBytes_iff _ s).2 (.inr (.inr (.inl ⟨x, rfl, hout⟩))))

/-- FX65 with its range in memory loads V0 to VX from I on, and changes nothing else (R182). -/
theorem exec_ldRegs_next {x : Reg} {s : State} (hin : s.i.toNat + x.val < Config.memSize) :
    ∃ t, exec (.ldRegs x) s = .next t ∧
      (∀ r : Reg, t.getV r = if r.val ≤ x.val then s.readByte (s.i.toNat + r.val) else s.getV r) ∧
      SameMemory s t ∧ { t with v := s.v } = s := by
  have h : exec (.ldRegs x) s = .next (s.loadRegisters s.base (x.val + 1)) := accessing_next.2 ⟨.inr hin, rfl⟩
  refine ⟨_, h, fun r => ?_, fun a => ?_, ?_⟩
  · rw [getV_loadRegisters s s.base (x.val + 1) (reg_lt x)]
    exact if_congr Nat.lt_succ_iff rfl rfl
  · rw [exec_writes h]; rfl
  · rw [exec_writes h]; rfl

/-- Settles O40: the load with its range in memory, and its fault otherwise. -/
theorem registersLoaded : Obligations.RegistersLoaded := fun x s =>
  ⟨exec_ldRegs_next, fun hout =>
    exec_outOfBounds ((not_inMemory_accessedBytes_iff _ s).2 (.inr (.inr (.inr ⟨x, rfl, hout⟩))))⟩

/-- States with the same memory read the same bytes. -/
theorem readByte_of_mem_eq {t u : State} (h : u.mem = t.mem) (a : Nat) : u.readByte a = t.readByte a :=
  congrArg (Memory.read · a) h

/-- Settles O41: register r lies at I + r after the dump, and the load reads it from there. -/
theorem dumpThenLoadRestores : Obligations.DumpThenLoadRestores := by
  intro x s t u hwf hdump hmem hi
  have hti : t.i = s.i := exec_i hdump fun _ _ => ⟨nofun, nofun, nofun⟩
  have hui : u.i.toNat = s.i.toNat := by rw [hi, hti]
  have hin : u.i.toNat + x.val < Config.memSize := by
    rw [hui]
    exact (accessing_next.1 hdump).1.resolve_left (Nat.succ_ne_zero _)
  obtain ⟨z, hz, hregs, -, hrest⟩ := exec_ldRegs_next hin
  refine ⟨z, hz, fun r hr => ?_, fun r hr => ?_, hrest⟩
  · rw [hregs, if_pos hr, readByte_of_mem_eq hmem, hui, readByte_dumped hwf hdump hr]
  · rw [hregs, if_neg (Nat.not_le.2 hr)]

/-! ### The fetch of stored bytes -/

/-- A fetch from inside memory is the number of its two bytes (R62, R91). -/
theorem fetch_bytes {u : State} {f : Nat → Nat} (hpc : u.pc.toNat + 1 < Config.memSize)
    (hf : ∀ a, (u.readByte a).toNat = f a) :
    ∃ w, fetch u = .ok w ∧ w.toNat = f u.pc.toNat * 256 + f (u.pc.toNat + 1) :=
  ⟨_, fetch_ok.2 ⟨hpc, rfl⟩, by rw [opcodeOf_toNat, hf, hf]⟩

/-- Every byte after FX55, as a number (R181). -/
theorem readByte_after_dump_toNat {x : Reg} {s t : State} (hwf : s.mem.wf) (h : exec (.stRegs x) s = .next t)
    (a : Nat) : (t.readByte a).toNat = byteAfterDump x s a := by
  rw [readByte_after_dump hwf h, byteAfterDump, apply_ite BitVec.toNat]

/-- Settles O42: the fetch by its two bytes, and every byte after the store. -/
theorem storeIsSeenByNextFetch : Obligations.StoreIsSeenByNextFetch := by
  refine ⟨fun x s t u hwf h hmem hpc => fetch_bytes hpc fun a => ?_,
    fun x s t u hwf h hmem hpc => fetch_bytes hpc fun a => ?_, fun x s t u r q hwf h hq hqx hmem hpc => ?_⟩
  · rw [readByte_of_mem_eq hmem, readByte_after_digits hwf h]
  · rw [readByte_of_mem_eq hmem, readByte_after_dump_toNat hwf h]
  · have hin : s.i.toNat + (x.val + 1) ≤ Config.memSize :=
      (accessing_next.1 h).1.resolve_left (Nat.succ_ne_zero _)
    have hpc1 : u.pc.toNat + 1 = s.i.toNat + q.val := by omega
    refine fetch_ok.2 ⟨by omega, ?_⟩
    rw [readByte_of_mem_eq hmem, readByte_of_mem_eq hmem, hpc1, hpc, readByte_dumped hwf h (by omega),
      readByte_dumped hwf h hqx]

end Sys2Proof.Machine
end

section
/-! PROOFS. The run state (10_state.md R30), and the step that raises until `Reset()` or `Load` (60_exceptions.md R202,
R204). -/

namespace Sys2Proof.Machine

/-! ### The run state -/

/-- `Step()` of a machine whose fetch answers `w` executes `w` (R90). -/
theorem stepCycle_of_fetch {s : State} {w : Word} (hmode : s.mode = .ready) (hfetch : fetch s = .ok w) :
    stepCycle s = executeWord w s := by
  rw [stepCycle, hmode, hfetch]

/-- FX0A, when it is fetched, enters the wait (R162). -/
theorem performed_step_ldVxK {s : State} {w : Word} {x : Reg} (hmode : s.mode = .ready) (hfetch : fetch s = .ok w)
    (hw : decodeWord w = .ok (.ldVxK x)) : (performed .step s).mode = .awaitingKey x := by
  have hperform : perform .step s = exec (.ldVxK x) s.advance := by
    rw [perform, stepCycle_of_fetch hmode hfetch, executeWord, hw]
  rw [performed_of_next (hperform.trans (exec_ldVxK x s.advance))]

/-- A completed `Step()` of a ready machine leaves it ready, or has fetched FX0A (R30). -/
theorem stepCycle_mode {s t : State} (hmode : s.mode = .ready) (h : stepCycle s = .next t) :
    t.mode = .ready ∨ ∃ w x, fetch s = .ok w ∧ decodeWord w = .ok (.ldVxK x) := by
  cases hfetch : fetch s with
  | error f => rw [stepCycle_ready hmode, hfetch] at h; cases h
  | ok w =>
    rw [stepCycle_of_fetch hmode hfetch, executeWord] at h
    cases hw : decodeWord w with
    | error e => rw [hw] at h; cases h; exact .inl hmode
    | ok i =>
      rw [hw] at h
      by_cases hi : ∃ x, i = .ldVxK x
      · obtain ⟨x, rfl⟩ := hi
        exact .inr ⟨w, x, rfl, hw⟩
      · exact .inl ((exec_mode h (not_exists.1 hi)).trans hmode)

/-- `Step()` of a ready machine leaves it ready, or enters the wait of the FX0A it fetched (R30). -/
theorem performed_step_mode {s : State} (hmode : s.mode = .ready) : (performed .step s).mode = .ready ∨
    ∃ w x, fetch s = .ok w ∧ decodeWord w = .ok (.ldVxK x) ∧ (performed .step s).mode = .awaitingKey x := by
  cases h : perform .step s with
  | next t =>
    rcases stepCycle_mode hmode h with hready | ⟨w, x, hfetch, hw⟩
    · exact .inl ((congrArg State.mode (performed_of_next h)).trans hready)
    · exact .inr ⟨w, x, hfetch, hw, performed_step_ldVxK hmode hfetch hw⟩
  | fault f => rw [performed_of_fault (e := .step) nofun h]; exact .inl hmode
  | refused q => exact absurd h (perform_not_refused .step s q)

/-- `Load` leaves the machine ready exactly when the image fits (R238, R239). -/
theorem performed_load_mode (bytes : List Byte) (s : State) : (performed (.load bytes) s).mode =
    if bytes.length ≤ Config.memSize - Config.progBase then .ready else .halted := by
  refine (loadState_mode s bytes).trans ?_
  rw [← ite_not]
  exact if_congr Nat.not_lt rfl rfl

/-- Settles O44: the mode that each event leaves. -/
theorem modeTransitions : Obligations.ModeTransitions := by
  refine ⟨rfl, fun s => ⟨rfl, fun bytes => performed_load_mode bytes s, step_idle_of_not_ready, performed_step_mode,
    fun w x hmode hfetch hw => performed_step_ldVxK hmode hfetch hw, fun k x hwait => ?_, fun k hidle => ?_, rfl,
    fun _ => rfl⟩⟩
  · exact congrArg State.mode (keyPress_awaiting hwait k)
  · exact congrArg State.mode (keyPress_dropped hidle k)

/-! ### The raising step -/

/-- When `Step()` raises: by PC, by memory, and by what the instruction there checks; the timers, the key levels and the
schedule do not matter (R193 to R195). -/
theorem stepCycle_fault_iff {s : State} {f : Fault} : stepCycle s = .fault f ↔ s.mode = .ready ∧
    ((Config.memSize ≤ s.pc.toNat + 1 ∧ f = .outOfBoundsAccess) ∨
      ∃ w i, fetch s = .ok w ∧ decodeWord w = .ok i ∧ Raises i s f) := by
  by_cases hmode : s.mode = .ready
  · rw [and_iff_right hmode, ← fetch_error]
    cases hfetch : fetch s with
    | error g => simp [stepCycle_ready hmode, hfetch]
    | ok w =>
      rw [stepCycle_of_fetch hmode hfetch, executeWord]
      cases hw : decodeWord w with
      | error e => simp [execUnknown, hw]
      | ok i =>
        have hadvance : Raises i s.advance f ↔ Raises i s f := by cases f <;> rfl
        simp [hw, exec_fault_iff, hadvance]
  · simp [stepCycle_waiting hmode, hmode]

/-- A `Step()` raises exactly when the driver is told (R191). -/
theorem reported_step_iff {s : State} {f : Fault} : reported .step s = some f ↔ stepCycle s = .fault f := by
  rw [reported, perform]
  cases stepCycle s <;> simp [Result.error?]

/-- No ordinary event takes the machine off a raising instruction (R202, R204). -/
theorem ordinary_keeps_raising {e : Event} (he : e.Ordinary) {s : State} {f : Fault} (h : stepCycle s = .fault f) :
    stepCycle (performed e s) = .fault f ∧ (performed e s).pc = s.pc := by
  have hcause := stepCycle_fault_iff.1 h
  cases e with
  | step => rw [performed_of_fault (e := .step) nofun h]; exact ⟨h, rfl⟩
  | tick => exact ⟨stepCycle_fault_iff.2 hcause, rfl⟩
  | keyPress k => rw [keyPress_ready hcause.1]; exact ⟨h, rfl⟩
  | setKeys levels => exact ⟨stepCycle_fault_iff.2 hcause, rfl⟩
  | reset | load => exact he.elim

/-- No sequence of ordinary events takes the machine off a raising instruction (R202, R204). -/
theorem drive_keeps_raising {events : List Event} (he : ∀ e ∈ events, e.Ordinary) {s : State} {f : Fault}
    (h : stepCycle s = .fault f) : stepCycle (drive events s) = .fault f ∧ (drive events s).pc = s.pc := by
  induction events generalizing s with
  | nil => exact ⟨h, rfl⟩
  | cons e events ih =>
    obtain ⟨hhead, htail⟩ := List.forall_mem_cons.1 he
    obtain ⟨hraises, hpc⟩ := ordinary_keeps_raising hhead h
    obtain ⟨hdrive, hdrivepc⟩ := ih htail hraises
    exact ⟨hdrive, hdrivepc.trans hpc⟩

/-- Settles O46, by induction on the events. -/
theorem raisingStepIsStuckUntilReset : Obligations.RaisingStepIsStuckUntilReset := by
  intro s f hreport
  have h := reported_step_iff.1 hreport
  refine ⟨performed_of_fault (e := .step) nofun h, fun events he => ?_, rfl, fun bytes hfits => ?_⟩
  · obtain ⟨hraises, hpc⟩ := drive_keeps_raising he h
    exact ⟨reported_step_iff.2 hraises, hpc⟩
  · rw [performed_load_mode]
    exact if_pos hfits

end Sys2Proof.Machine
end

section
/-! PROOFS. The statements of 70_reset_and_hazards.md on the state that `Reset()` leaves (R230) and on the launch state
(R238, R239). -/

namespace Sys2Proof.Machine

/-- Every address of the font reads its byte of the font (R233). -/
theorem font_getElem?_unlisted {a : Nat} (h : a < 80) : Config.font[a]? = some (Memory.unlisted a) := by
  have hlen : a < Config.font.length := h
  rw [Memory.unlisted, if_pos (Nat.zero_le a), Nat.sub_zero, List.getD_eq_getElem?_getD, List.getElem?_eq_getElem hlen,
    Option.getD_some]

/-- Beyond the font an unlisted address reads 0 (R232; log 10). -/
theorem unlisted_above_font {a : Nat} (h : 80 ≤ a) : Memory.unlisted a = 0 := by
  have hlen : Config.font.length ≤ a := h
  rw [Memory.unlisted, if_pos (Nat.zero_le a), Nat.sub_zero, List.getD_eq_getElem?_getD, List.getElem?_eq_none hlen,
    Option.getD_none]

/-- Memory after reset reads as if nothing were listed (R232). -/
theorem readByte_resetOp (s : State) (a : Nat) : s.resetOp.readByte a = Memory.unlisted a := by
  rw [State.readByte, resetOp_mem, Memory.read]

/-- Every register is 0 after reset (R230). -/
theorem getV_resetOp (s : State) (r : Reg) : s.resetOp.getV r = 0 := by
  rw [State.getV, resetOp_v, Vector.getElem_replicate]

/-- Settles O48: the written items one by one, and memory as the font followed by zeroes. -/
theorem resetWritesEveryItem : Obligations.ResetWritesEveryItem := by
  refine fun s => ⟨_, performed_reset s, rfl, getV_resetOp s, rfl, rfl, rfl, rfl, rfl, rfl, rfl, fun a ha => ?_,
    fun a ha => ?_, rfl, rfl⟩
  · rw [readByte_resetOp, font_getElem?_unlisted ha]
  · rw [readByte_resetOp, unlisted_above_font ha]

/-- A `Load` that does not fit leaves the reset state (R239). -/
theorem loadState_of_large {bytes : List Byte} (h : TooLarge bytes) (s : State) : s.loadState bytes = s.resetOp :=
  if_pos h

/-- A `Load` that fits leaves the reset state with the image in memory, and ready (R238). -/
theorem loadState_of_fits {bytes : List Byte} (h : ¬ TooLarge bytes) (s : State) : s.loadState bytes =
    { s.resetOp with mem := Memory.writeBytes [] Config.progBase bytes, mode := .ready } := by
  rw [State.loadState, if_neg h, resetOp_mem]

/-- What `Load` writes on top of a halted state, put back. -/
theorem undo_load {r : State} (h : r.mode = .halted) (m : Memory) :
    { ({ r with mem := m, mode := .ready } : State) with mem := r.mem, mode := .halted } = r := by
  rw [← h]

/-- The bytes of the image are read back from 0x200 on (R238). -/
theorem read_image {bytes : List Byte} (h : ¬ TooLarge bytes) {k : Nat} (hk : k < bytes.length) :
    bytes[k]? = some ((Memory.writeBytes [] Config.progBase bytes).read (0x200 + k)) := by
  have hfits : Config.progBase + bytes.length ≤ Config.memSize := by
    simp only [TooLarge, memSize_eq, progBase_eq] at h ⊢
    omega
  rw [List.getElem?_eq_getElem hk]
  exact congrArg some (read_writeBytes_inside wf_nil hfits hk).symm

/-- Outside the image memory reads as after reset (R238). -/
theorem read_outside_image {bytes : List Byte} {a : Nat} (h : a < 0x200 ∨ 0x200 + bytes.length ≤ a) :
    (Memory.writeBytes [] Config.progBase bytes).read a = Memory.unlisted a :=
  read_writeBytes_outside [] h

/-- Settles O50: the failed load as the reset, and the launch state by what it reads inside and outside the image. -/
theorem loadLeavesLaunchState : Obligations.LoadLeavesLaunchState := by
  refine ⟨fun bytes s hlarge => loadState_of_large hlarge s, fun bytes s hfits => ?_⟩
  have hsmall : ¬ TooLarge bytes := Nat.not_lt.2 hfits
  refine ⟨_, loadState_of_fits hsmall s, ?_, fun k => read_image hsmall, fun a ha => ?_, fun a hlow hhigh => ?_,
    fun a ha => ?_, rfl, undo_load (resetOp_mode s) _⟩
  · rw [reported_load, if_neg hsmall]
  · rw [font_getElem?_unlisted ha]
    exact congrArg some (read_outside_image (.inl (by omega))).symm
  · exact (read_outside_image (.inl hhigh)).trans (unlisted_above_font hlow)
  · exact (read_outside_image (.inr ha)).trans (unlisted_above_font (by omega))

end Sys2Proof.Machine
end
